-- ==== Sys2Proof/Word.lean ====
section
/-! DEFINITION. The widths of the engine's registers and of what it exchanges with the agents
outside it (00_scope.md rule R9). -/

namespace Sys2Proof

/-- One byte: an opword (R90), a register location (R63), a byte of an answer (R61). -/
abbrev Byte := BitVec 8

/-- A calibration word or a raw sample: `W_WORD` = 16 bits (R9, R31, R38, R39). -/
abbrev Word16 := BitVec 16

/-- The sensor's bus address: 7 bits (R62). -/
abbrev DevAddr := BitVec 7

/-- The bit pattern of an IEEE 754 binary64 value, `W_RESULT` = 64 bits (R9, R100, R124). -/
abbrev F64 := BitVec 64

end Sys2Proof
end

