-- ==== Sys2Proof/Config.lean ====
section
/-! DEFINITION. What the spec leaves open, as free values: constants with no body, so that nothing can be
proved about what they are. Everything else the spec fixes (00_scope.md rule R9), or takes as an input
of the step (R10), which State holds. -/

namespace Sys2Proof

/-- One floating-point computation, with the operands it was given: the argument of
`Config.floatUnstated`. -/
inductive FloatCase where
  | convert (i : Int)
  | add (a b : F64)
  | sub (a b : F64)
  | mul (a b : F64)
  | div (a b : F64)
  | round2 (v : F64)
  deriving DecidableEq, Repr

/-- The result of a floating-point computation for which the spec states none: an operand that is
an infinity or a NaN, a zero divisor, an exact result too large for a finite binary64. Rule R131 says
that none of these arises on an input the engine can receive and that they "need no rule", so no
value is chosen here (log entry 5). -/
opaque Config.floatUnstated : FloatCase → F64

/-- The bits a calibration word is left with where an operation leaves it with no value (R156: "every
`CALW[k]` holds no value"): by the word's index and by how many events the run had seen (log entry 24). -/
opaque Config.lostWord : Fin 10 → Nat → Word16

/-- The bits RESULT is left with where an operation leaves it with no value (R41: "set RESULT to no value"):
by how many events the run had seen (log entry 24). -/
opaque Config.lostResult : Nat → BitVec 64

end Sys2Proof
end

