-- ==== Sys2Proof/Syntax.lean ====
section
/-! DEFINITION. The syntax of everything that is encoded or exchanged: the rows of the opcode table,
the lines of a host program, and the requests and answers of the two external agents. -/

namespace Sys2Proof

/-- The four pressure modes (R95, R210). -/
inductive Mode where
  | low
  | standard
  | high
  | ultra
  deriving DecidableEq, Repr

/-- The three encodings of the opcode table (30_encoding.md, introduction). Only `hostOp` words are
decoded by the engine; words of the other two formats are emitted by it. -/
inductive Format where
  /-- `HOSTOP8`: an opword of the host interface (R91). -/
  | hostOp
  /-- `SENSOR_CMD8`: a command byte the engine writes to location 0xF1 (R94). -/
  | sensorCmd
  /-- `CAL_ADDR8`: a register location the engine reads in INIT (R96). -/
  | calAddr
  deriving DecidableEq, Repr

/-- The rows of opcode_table.json, one constructor each. No row has an operand: the pressure mode is
part of the PRES opwords (R90, R92). A host operation is requested by the host and accepted in IDLE;
a command byte and a calibration location stand for the transport request that carries them, which
the engine performs in the phase that waits for its answer (R35). -/
inductive Instr where
  /-- Load the calibration set (R155). -/
  | init
  /-- Raw compensated temperature, in hundredths (R185). -/
  | traw
  /-- Temperature in degrees Celsius (R186). -/
  | temp
  /-- Pressure, mode LOW (R218). -/
  | presLow
  /-- Pressure, mode STANDARD (R219). -/
  | presStandard
  /-- Pressure, mode HIGH (R220). -/
  | presHigh
  /-- Pressure, mode ULTRA (R221). -/
  | presUltra
  /-- `BusWrite(0xF1, [0x03])`, phase T_CMD (R183). -/
  | sensorCmdTemp
  /-- `BusWrite(0xF1, [0x00])`, phase P_CMD of PRES.LOW (R211). -/
  | sensorCmdLow
  /-- `BusWrite(0xF1, [0x01])`, phase P_CMD of PRES.STANDARD (R211). -/
  | sensorCmdStandard
  /-- `BusWrite(0xF1, [0x10])`, phase P_CMD of PRES.HIGH (R211). -/
  | sensorCmdHigh
  /-- `BusWrite(0xF1, [0x11])`, phase P_CMD of PRES.ULTRA (R211). -/
  | sensorCmdUltra
  /-- `BusRead(0x8E, 2)`, phase INIT_RD(1) (R155). -/
  | calAddrC1
  /-- `BusRead(0x90, 2)`, phase INIT_RD(2) (R155). -/
  | calAddrC2
  /-- `BusRead(0x92, 2)`, phase INIT_RD(3) (R155). -/
  | calAddrC3
  /-- `BusRead(0x94, 2)`, phase INIT_RD(4) (R155). -/
  | calAddrC4
  /-- `BusRead(0x96, 2)`, phase INIT_RD(5) (R155). -/
  | calAddrC5
  /-- `BusRead(0x98, 2)`, phase INIT_RD(6) (R155). -/
  | calAddrC6
  /-- `BusRead(0x9A, 2)`, phase INIT_RD(7) (R155). -/
  | calAddrC7
  /-- `BusRead(0x9C, 2)`, phase INIT_RD(8) (R155). -/
  | calAddrC8
  /-- `BusRead(0x9E, 2)`, phase INIT_RD(9) (R155). -/
  | calAddrC9
  /-- `BusRead(0xA0, 2)`, phase INIT_RD(10) (R155). -/
  | calAddrC10
  deriving DecidableEq, Repr

/-- The table's "format" column. -/
def Instr.format : Instr → Format
  | .init | .traw | .temp | .presLow | .presStandard | .presHigh | .presUltra => .hostOp
  | .sensorCmdTemp | .sensorCmdLow | .sensorCmdStandard | .sensorCmdHigh | .sensorCmdUltra =>
    .sensorCmd
  | .calAddrC1 | .calAddrC2 | .calAddrC3 | .calAddrC4 | .calAddrC5 | .calAddrC6 | .calAddrC7
  | .calAddrC8 | .calAddrC9 | .calAddrC10 => .calAddr

/-- What the host can read (R42, R45, R101): the read-only registers and ports. `cal k` is
`CALREAD(k)`, with `k` as the host gives it, in range or not. -/
inductive HostRead where
  | status
  | result
  | rvalid
  | calValid
  | busy
  | cal (k : Nat)
  deriving DecidableEq, Repr

/-- One line of a host program (R101): an operation's mnemonic, the pseudo-operation `PRES` (R102),
or a `READ`. -/
inductive HostLine where
  | op (i : Instr)
  | pres
  | read (r : HostRead)
  deriving DecidableEq, Repr

/-- A request the engine issues to the Transport Adapter or the sleep primitive (R16, R61). A sleep's
duration is in milliseconds (R291; log entry 9). -/
inductive Request where
  | busRead (device : DevAddr) (location : Byte) (length : Nat)
  | busWrite (device : DevAddr) (location : Byte) (bytes : List Byte)
  | sleep (milliseconds : Nat)
  deriving DecidableEq, Repr

/-- What an agent answers (R61): the bytes of a read, of whatever length they come; a successful
write; the failure of a read or a write; the completion of a sleep. Any answer can come at any time:
the step says which of them has a meaning. -/
inductive Answer where
  | bytes (b : List Byte)
  | ok
  | failure
  | slept
  deriving DecidableEq, Repr

end Sys2Proof
end

