-- ==== Sys2Proof/WellFormed.lean ====
section
/-! DEFINITION. The checks on syntax. An `Instr` has no operand, so every term of it is well formed;
a line of a host program and an answer can be ill formed. -/

namespace Sys2Proof

/-- `CALREAD(k)` names a coefficient: k in 1..10 (R45). -/
def HostRead.wf : HostRead → Bool
  | .cal k => decide (1 ≤ k) && decide (k ≤ 10)
  | .status | .result | .rvalid | .calValid | .busy => true

/-- A line of a host program is an operation of the host interface, `PRES`, or a legal read (R101,
R102): a command byte or a calibration location is no line of a program. -/
def HostLine.wf : HostLine → Bool
  | .op i => decide (i.format = .hostOp)
  | .pres => true
  | .read r => r.wf

/-- The transport's contract (R61, R68, R71): a read is answered by exactly as many bytes as it asked
for or by a failure, a write by success or failure, a sleep by its completion. -/
def Answer.fits : Request → Answer → Bool
  | .busRead _ _ n, .bytes b => decide (b.length = n)
  | .busRead _ _ _, .failure => true
  | .busWrite _ _ _, .ok => true
  | .busWrite _ _ _, .failure => true
  | .sleep _, .slept => true
  | _, _ => false

end Sys2Proof
end

