-- ==== Sys2Proof/Decode.lean ====
section
/-! DEFINITION. The opcode table as rows, the decoder of each format, the encoder, the mode field of
a PRES opword, and the assembler of host programs (30_encoding.md). -/

namespace Sys2Proof

/-- A row of opcode_table.json: a byte belongs to it when the masked byte equals the match value. -/
structure Row where
  mask : Byte
  value : Byte
  instr : Instr
  deriving DecidableEq, Repr

/-- The opword map (R91): mask 0xFF for every row. -/
def hostRows : List Row :=
  [⟨0xFF, 0x01, .init⟩, ⟨0xFF, 0x02, .traw⟩, ⟨0xFF, 0x03, .temp⟩, ⟨0xFF, 0x80, .presLow⟩,
   ⟨0xFF, 0x81, .presStandard⟩, ⟨0xFF, 0x90, .presHigh⟩, ⟨0xFF, 0x91, .presUltra⟩]

/-- The command bytes (R94). -/
def sensorRows : List Row :=
  [⟨0xFF, 0x03, .sensorCmdTemp⟩, ⟨0xFF, 0x00, .sensorCmdLow⟩, ⟨0xFF, 0x01, .sensorCmdStandard⟩,
   ⟨0xFF, 0x10, .sensorCmdHigh⟩, ⟨0xFF, 0x11, .sensorCmdUltra⟩]

/-- The calibration locations (R64, R96). -/
def calRows : List Row :=
  [⟨0xFF, 0x8E, .calAddrC1⟩, ⟨0xFF, 0x90, .calAddrC2⟩, ⟨0xFF, 0x92, .calAddrC3⟩,
   ⟨0xFF, 0x94, .calAddrC4⟩, ⟨0xFF, 0x96, .calAddrC5⟩, ⟨0xFF, 0x98, .calAddrC6⟩,
   ⟨0xFF, 0x9A, .calAddrC7⟩, ⟨0xFF, 0x9C, .calAddrC8⟩, ⟨0xFF, 0x9E, .calAddrC9⟩,
   ⟨0xFF, 0xA0, .calAddrC10⟩]

/-- The rows of one format. -/
def Format.rows : Format → List Row
  | .hostOp => hostRows
  | .sensorCmd => sensorRows
  | .calAddr => calRows

/-- A byte lies in a row (R91). -/
def Row.holds (r : Row) (b : Byte) : Bool := b &&& r.mask == r.value

/-- The instruction a byte stands for in a format; `none` where the format has no such row. For
`hostOp` that is a reserved opword (R93). -/
def decodeByte (f : Format) (b : Byte) : Option Instr :=
  (f.rows.find? (fun r => r.holds b)).map Row.instr

/-- Decode the front of a byte sequence. Every word of every format is one byte (R90). -/
def decode (f : Format) : List Byte → Option (Instr × List Byte)
  | [] => none
  | b :: rest => (decodeByte f b).map (fun i => (i, rest))

/-- The byte of an instruction, from the tables of R91, R94 and R96. -/
def Instr.byte : Instr → Byte
  | .init => 0x01
  | .traw => 0x02
  | .temp => 0x03
  | .presLow => 0x80
  | .presStandard => 0x81
  | .presHigh => 0x90
  | .presUltra => 0x91
  | .sensorCmdTemp => 0x03
  | .sensorCmdLow => 0x00
  | .sensorCmdStandard => 0x01
  | .sensorCmdHigh => 0x10
  | .sensorCmdUltra => 0x11
  | .calAddrC1 => 0x8E
  | .calAddrC2 => 0x90
  | .calAddrC3 => 0x92
  | .calAddrC4 => 0x94
  | .calAddrC5 => 0x96
  | .calAddrC6 => 0x98
  | .calAddrC7 => 0x9A
  | .calAddrC8 => 0x9C
  | .calAddrC9 => 0x9E
  | .calAddrC10 => 0xA0

/-- The words of an instruction: one byte (R90). -/
def encode (i : Instr) : List Byte := [i.byte]

/-- The mode of a PRES opword (R91, R92): the class pattern `OPW & 0xEE = 0x80`, the mode index the
two bits `OPW[4]` and `OPW[0]`. -/
def opwordMode (w : Byte) : Option Mode :=
  if w &&& 0xEE = 0x80 then
    match w.getLsbD 4, w.getLsbD 0 with
    | false, false => some .low
    | false, true => some .standard
    | true, false => some .high
    | true, true => some .ultra
  else none

/-! ## The words of the opcode table -/

/-- The bytes of a table word of `nbits` bits, the first at the bottom; at least one. -/
def tableBytes (nbits w : Nat) : List Byte :=
  (List.range (max 1 (nbits / 8))).map (fun k => BitVec.ofNat 8 (w / 2 ^ (8 * k)))

/-- Read a byte sequence whose format is not given: as an opword if it is one, else as a calibration
location, else as a command byte. The engine never does this: its request port decodes `hostOp` words
only (log entry 12). -/
def decodeAny (bs : List Byte) : Option (Instr × List Byte) :=
  (decode .hostOp bs).orElse fun _ => (decode .calAddr bs).orElse fun _ => decode .sensorCmd bs

/-- The instruction read from a word numbered as opcode_table.json numbers it. A table word does not
say which of the three formats it belongs to, and 0x01, 0x03 and 0x90 stand in two of them: those are
read as opwords (log entry 12). -/
def decodeTableWord (nbits w : Nat) : Option Instr :=
  (decodeAny (tableBytes nbits w)).map Prod.fst

/-! ## The assembler (R101, R102) -/

/-- The opword of a line; a `READ` issues no operation and has none (R101). -/
def HostLine.opword : HostLine → Option Byte
  | .op i => if i.format = .hostOp then some i.byte else none
  | .pres => some 0x81
  | .read _ => none

/-- The lines with no number in them, as written. -/
def plainLines : List (String × HostLine) :=
  [("INIT", .op .init), ("TRAW", .op .traw), ("TEMP", .op .temp), ("PRES.LOW", .op .presLow),
   ("PRES.STANDARD", .op .presStandard), ("PRES.HIGH", .op .presHigh),
   ("PRES.ULTRA", .op .presUltra), ("PRES", .pres), ("READ STATUS", .read .status),
   ("READ RESULT", .read .result), ("READ RVALID", .read .rvalid),
   ("READ CAL_VALID", .read .calValid), ("READ BUSY", .read .busy)]

/-- The value of a run of decimal digits; `none` for another character. -/
def decimal : List Char → Nat → Option Nat
  | [], n => some n
  | c :: cs, n => if c.isDigit then decimal cs (10 * n + (c.toNat - 48)) else none

/-- A line's text without its comment and without the spaces around it (R101: "optionally followed by
`;` and a comment"). -/
def stripLine (cs : List Char) : List Char :=
  let body := (cs.takeWhile (· != ';')).dropWhile (· == ' ')
  (body.reverse.dropWhile (· == ' ')).reverse

/-- `READ CAL k`, with k in decimal (R101). -/
def parseReadCal (cs : List Char) : Option HostLine :=
  let pre := "READ CAL ".toList
  if pre.isPrefixOf cs && decide (pre.length < cs.length) then
    (decimal (cs.drop pre.length) 0).map (fun k => .read (.cal k))
  else none

/-- Parse one line of a host program; `none` where the text is no line of R101 or R102. -/
def parseLine (line : List Char) : Option HostLine :=
  let cs := stripLine line
  match plainLines.find? (fun p => p.1.toList == cs) with
  | some p => some p.2
  | none => parseReadCal cs

end Sys2Proof
end

