-- ==== Sys2Proof/Machine/State.lean ====
section
/-! DEFINITION. The engine's registers (10_state.md rule R30), the model's own record of the agents
around it, the reasons a step can stop, and the state after reset (R43). -/

namespace Sys2Proof.Machine

open Sys2Proof

/-- The sequencer phase, the counterpart of a program counter (R35): what the engine is waiting for.
`initRd k` is the spec's `INIT_RD(k+1)`. -/
inductive Phase where
  /-- No operation in progress; a host request may be accepted. -/
  | idle
  /-- `BusRead(CAL_ADDR(k+1), 2)`. -/
  | initRd (k : Fin 10)
  /-- `BusWrite(0xF1, [0x03])`. -/
  | tCmd
  /-- `Sleep(0.005)`. -/
  | tWait
  /-- `BusRead(0xF5, 2)`, the raw temperature. -/
  | tRd
  /-- `BusWrite(0xF1, [MODE_BYTE(m)])`. -/
  | pCmd
  /-- `Sleep(DELAY(m))`. -/
  | pWait
  /-- `BusRead(0xF5, 2)`, the raw pressure. -/
  | pRd
  deriving DecidableEq, Repr

/-- The completion code of the last operation that ended (R40, R99). -/
inductive Status where
  | none
  | ok
  | transportError
  | uninitializedError
  deriving DecidableEq, Repr

/-- The two error kinds (R250). -/
inductive ErrorKind where
  | transport
  | uninitialized
  deriving DecidableEq, Repr

/-- A register of w bits that can be in the spec's state "no value" (R43, R44, R156). It always has bits,
and a read gives them; `holds` says whether they are a value (log entry 1). -/
structure Register (w : Nat) where
  /-- The bits a read gives. -/
  value : BitVec w
  /-- False is the spec's "no value". -/
  holds : Bool
  deriving DecidableEq, Repr

/-- A register that a write left with a value. -/
def Register.written {w : Nat} (v : BitVec w) : Register w := ⟨v, true⟩

/-- A register after reset: no value (R43), with the bits zero (log entry 1). -/
def Register.atReset {w : Nat} : Register w := ⟨0, false⟩

/-- What the outside world does to the engine, one at a time: the host requests an operation or reads
a register (R42), an agent answers the outstanding request (R61), an agent answers a request that an
earlier reset abandoned (R281), or the engine is reset (R280). -/
inductive Input where
  | request (opword : Byte)
  | read (r : HostRead)
  | answer (a : Answer)
  | lateAnswer
  | reset
  deriving DecidableEq, Repr

/-- What a host read returns (R45, R99, R100): the 2-bit STATUS code, the 64-bit RESULT, a flag, or a
decoded coefficient. -/
inductive HostValue where
  | status (code : BitVec 2)
  | result (bits : BitVec 64)
  | flag (b : Bool)
  | coefficient (c : Int)
  deriving DecidableEq, Repr

/-- What the engine does to the outside world: it issues a request (R61), delivers a response (R17)
or gives the host a value (R45). -/
inductive Event where
  | issued (r : Request)
  | responded (st : Status) (value : Option (BitVec 64))
  | gave (r : HostRead) (v : HostValue)
  deriving DecidableEq, Repr

/-- Why the machine has no further step. -/
inductive Fault where
  /-- The engine waits in its phase for an answer and none is at hand (R79: "it has no step until the
  answer arrives"). Raised by every phase but IDLE. Safe: the machine stops. -/
  | stuck
  /-- CUROP holds the opword of no operation that has the current phase: no row of R36 says where the
  phase goes. Raised by the two data reads and by the pressure command and sleep. Safe: the machine
  stops. -/
  | noSequence
  deriving DecidableEq, Repr

/-- What the engine gives no meaning (R266). A refusal marks the whole run as refused. -/
inductive Refusal where
  /-- The instruction has no meaning in the model yet. Raised by `exec` alone. Safe. -/
  | notModelled (mnemonic : String)
  /-- A request with a reserved opword (R93). Raised by the request port. Safe: the run stops. -/
  | reservedOpword (w : Byte)
  /-- INIT while CAL_VALID = 1 (R157). Raised by INIT. Safe: the run stops. -/
  | initWhileCalValid
  /-- A host read of RESULT while RVALID = 0 (R266). Raised by the read port. Safe: the run stops. -/
  | resultNotValid
  /-- A host read of CALREAD(k) while CAL_VALID = 0 or with k outside 1..10 (R266). Raised by the read
  port. Safe: the run stops. -/
  | calreadRefused (k : Nat)
  /-- A read answer of a length other than 2 (R68, R266). Raised by the reads. Safe: the run stops. -/
  | answerLength (n : Nat)
  /-- An answer of a kind that the outstanding request cannot have (R61, R71, R266): a failed sleep, bytes
  for a write. Raised by every phase but IDLE. Safe: the run stops. -/
  | answerKind
  /-- An answer to a request the engine did not issue (R266): no request is outstanding, or not this
  one. Raised by the answer port and by the meanings of the emitted words. Safe: the run stops. -/
  | answerNotOutstanding
  deriving DecidableEq, Repr

/-- The state of the machine. The first nine fields are the spec's tuple (R30). The last four are the
model's record of the agents around the engine (log entries 2 and 3). -/
structure State where
  /-- CALW[1..10]: entry k is the spec's CALW[k+1] (R31). -/
  calw : Vector (Register 16) 10
  /-- CAL_VALID (R33). -/
  calValid : Bool
  /-- The sequencer phase (R35). -/
  phase : Phase
  /-- CUROP, the opword of the operation in progress (R37). -/
  curop : Register 8
  /-- TR, the raw temperature term as 16-bit two's complement (R38). -/
  tr : Register 16
  /-- PRAW, the raw pressure, unsigned (R39). -/
  praw : Register 16
  /-- STATUS (R40). -/
  status : Status
  /-- RVALID (R41). -/
  rvalid : Bool
  /-- RESULT (R41). -/
  result : Register 64
  /-- The opwords of the host requests not yet accepted, oldest first (R267). -/
  held : List Byte
  /-- What the outside world does from here on, in order (R10). -/
  inputs : List Input
  /-- How many requests earlier resets abandoned whose answer has not come (R281). -/
  abandoned : Nat
  /-- What the engine has done to the outside world, oldest first. -/
  trace : List Event
  deriving DecidableEq, Repr

/-- The calibration file after reset: no value in any word (R43). -/
def noCalibration : Vector (Register 16) 10 := Vector.replicate 10 .atReset

/-- The state after reset (R43, R280), with nothing requested, nothing to come and nothing done. -/
def State.reset : State where
  calw := noCalibration
  calValid := false
  phase := .idle
  curop := .atReset
  tr := .atReset
  praw := .atReset
  status := .none
  rvalid := false
  result := .atReset
  held := []
  inputs := []
  abandoned := 0
  trace := []

/-- The outcome of a step of this machine. -/
abbrev Outcome := Host.Outcome State Fault Refusal

end Sys2Proof.Machine
end

