-- ==== Sys2Proof/Machine/Operands.lean ====
section
/-! DEFINITION. The operand forms: how a received byte pair becomes a word and a word a number, the
integer shifts, and the constants that the emitted words and the modes stand for. -/

namespace Sys2Proof.Machine

open Sys2Proof

/-! ## Received words (R66, R97, R98, R150 to R153) -/

/-- `WORD16(b0, b1) = b1 * 256 + b0` (R150). -/
def word16 (b0 b1 : Byte) : Word16 := BitVec.ofNat 16 (b1.toNat * 256 + b0.toNat)

/-- `DEC_U16(w)` (R151). -/
def decU16 (w : Word16) : Int := (w.toNat : Int)

/-- `DEC_S16(w)`: two's complement (R152). -/
def decS16 (w : Word16) : Int := if w.toNat ≤ 32767 then (w.toNat : Int) else (w.toNat : Int) - 65536

/-- The coefficient decode, selected by the index alone (R153): `k` is the spec's k less one, so k < 4
is C1..C4. -/
def decCoefficient (k : Fin 10) (w : Word16) : Int := if k.val < 4 then decU16 w else decS16 w

/-! ## Integer shifts (R121, R122) -/

/-- `asr(v, n) = floor(v / 2^n)` (R121). -/
def asr (v : Int) (n : Nat) : Int := v / 2 ^ n

/-- `shl(v, n) = v * 2^n` (R122). -/
def shl (v : Int) (n : Nat) : Int := v * 2 ^ n

/-! ## Constants of the sensor (R62, R64, R94 to R96, R210) -/

/-- `DEV_ADDR` (R62). -/
def devAddr : DevAddr := 0x77

/-- The command register (R64). -/
def commandRegister : Byte := 0xF1

/-- The data register (R64). -/
def dataRegister : Byte := 0xF5

/-- `CAL_ADDR(k) = 0x8E + 2*(k - 1)`, with `k` the spec's k less one (R96). -/
def calAddr (k : Fin 10) : Byte := BitVec.ofNat 8 (0x8E + 2 * k.val)

/-- The table row of a calibration location (R96). -/
def calInstr : Fin 10 → Instr
  | 0 => .calAddrC1
  | 1 => .calAddrC2
  | 2 => .calAddrC3
  | 3 => .calAddrC4
  | 4 => .calAddrC5
  | 5 => .calAddrC6
  | 6 => .calAddrC7
  | 7 => .calAddrC8
  | 8 => .calAddrC9
  | 9 => .calAddrC10

/-- `MODE_BYTE(m)` (R95, R210). -/
def modeByte : Mode → Byte
  | .low => 0x00
  | .standard => 0x01
  | .high => 0x10
  | .ultra => 0x11

/-- The opword of PRES in a mode, `0x80 | MODE_BYTE(m)` (R217). -/
def presOpword (m : Mode) : Byte := 0x80 ||| modeByte m

/-- The table row of a mode's command byte (R94). -/
def modeInstr : Mode → Instr
  | .low => .sensorCmdLow
  | .standard => .sensorCmdStandard
  | .high => .sensorCmdHigh
  | .ultra => .sensorCmdUltra

/-- The settle time after the temperature command, in milliseconds (R183, R291). -/
def temperatureDelay : Nat := 5

/-- `DELAY(m)`, in milliseconds (R210, R291). HIGH's is shorter than STANDARD's and is kept so (R292). -/
def modeDelay : Mode → Nat
  | .low => 5
  | .standard => 20
  | .high => 19
  | .ultra => 67

end Sys2Proof.Machine
end

