-- ==== Sys2Proof/Machine/Flags.lean ====
section
/-! DEFINITION. The engine's condition flags: the STATUS code, RVALID, BUSY, and what they say of an
operation's end (R40, R41, R45, R99). -/

namespace Sys2Proof.Machine

open Sys2Proof

/-- The 2-bit code of STATUS (R99). -/
def Status.code : Status → BitVec 2
  | .none => 0b00
  | .ok => 0b01
  | .transportError => 0b10
  | .uninitializedError => 0b11

/-- The status an error reports (R250). -/
def ErrorKind.status : ErrorKind → Status
  | .transport => .transportError
  | .uninitialized => .uninitializedError

/-- `BUSY = (phase != IDLE)` (R45). -/
def State.busy (s : State) : Bool := s.phase != .idle

/-- RVALID after a response: 1 exactly when the response has a value (R41). -/
def rvalidOf (value : Option (BitVec 64)) : Bool := value.isSome

end Sys2Proof.Machine
end

