-- ==== Sys2Proof/Machine/Ops.lean ====
section
/-! DEFINITION. The named operations every meaning is written with: reading registers, issuing a
request and entering a phase, taking an answer, accepting and holding a request, ending an operation,
and raising an error. The engine has no memory (R16, R60), so these are all its accesses. -/

namespace Sys2Proof.Machine

open Sys2Proof

/-! ## Reading registers -/

/-- The coefficient `C(k+1)`, the decoded view of CALW (R32). -/
def State.coefficient (s : State) (k : Fin 10) : Int := decCoefficient k s.calw[k].value

/-- The mode of the PRES operation whose opword CUROP has (R37, R92). -/
def State.mode (s : State) : Option Mode := opwordMode s.curop.value

/-! ## Leaving a register with no value

"No value" is a state that operations write (R41, R156, R254). The bits that are left are free (log entry
24). -/

/-- `RESULT <- no value` (R41, R254). -/
def State.lostResult (s : State) : Register 64 := ⟨Config.lostResult s.trace.length, false⟩

/-- `CALW[j] <- no value` for every j (R156). -/
def State.lostCalibration (s : State) : Vector (Register 16) 10 :=
  Vector.ofFn (fun k => ⟨Config.lostWord k s.trace.length, false⟩)

/-- RESULT after a response (R41): its value, or no value. -/
def State.resultAfter (s : State) : Option (BitVec 64) → Register 64
  | some v => .written v
  | none => s.lostResult

/-! ## The operation in progress (R37) -/

/-- The table row of the request the engine waits on, in the phases whose request has one (R35, R94,
R96): the calibration reads and the command writes. -/
def State.emitted (s : State) : Option Instr :=
  match s.phase with
  | .initRd k => some (calInstr k)
  | .tCmd => some .sensorCmdTemp
  | .pCmd => s.mode.map modeInstr
  | .idle | .tWait | .tRd | .pWait | .pRd => none

/-- The request that carries an emitted word (R64): a calibration location is read, two bytes; a
command byte is written to the command register. -/
def emittedRequest (i : Instr) : Option Request :=
  match i.format with
  | .calAddr => some (.busRead devAddr i.byte 2)
  | .sensorCmd => some (.busWrite devAddr commandRegister [i.byte])
  | .hostOp => none

/-- The request whose answer the engine waits for (R35, R64). -/
def State.outstanding (s : State) : Option Request :=
  match s.phase with
  | .tWait => some (.sleep temperatureDelay)
  | .pWait => s.mode.map (fun m => .sleep (modeDelay m))
  | .tRd | .pRd => some (.busRead devAddr dataRegister 2)
  | .idle | .initRd _ | .tCmd | .pCmd => s.emitted.bind emittedRequest

/-! ## Steps every operation is made of -/

/-- Record what the engine does to the outside world. -/
def emit (e : Event) (s : State) : State := { s with trace := s.trace ++ [e] }

/-- Enter a phase and issue its request (R35, R72: the request is issued once the answer before it has
come). -/
def enter (p : Phase) (s : State) : State :=
  { s with
    phase := p
    trace := s.trace ++ (State.outstanding { s with phase := p }).toList.map Event.issued }

/-- Accept an operation (R36): CUROP takes the opword and RVALID is cleared. RESULT holds no value while
RVALID = 0 (93_implementation_defined.md U7; log entry 6). -/
def accept (opword : Byte) (s : State) : State :=
  { s with curop := .written opword, rvalid := false, result := s.lostResult }

/-- Hold a host request behind those already held (R267). -/
def hold (opword : Byte) (s : State) : State := { s with held := s.held ++ [opword] }

/-- `respond(status, value)` (R17, R40, R41): the only write of STATUS; RVALID says whether there is a
value, RESULT holds it or no value, the phase returns to IDLE, and the host gets the response. -/
def respond (st : Status) (value : Option (BitVec 64)) (s : State) : State :=
  { s with
    status := st
    rvalid := rvalidOf value
    result := s.resultAfter value
    phase := .idle
    trace := s.trace ++ [.responded st value] }

/-- `CALW[j] <- no value` for every j (R156). -/
def clearCalibration (s : State) : State := { s with calw := s.lostCalibration }

/-- `CALW[k] <- w` (R155). -/
def writeCalibration (k : Fin 10) (w : Word16) (s : State) : State :=
  { s with calw := s.calw.set k (.written w) }

/-- The phases of INIT (R35). -/
def Phase.isInit : Phase → Bool
  | .initRd _ => true
  | .idle | .tCmd | .tWait | .tRd | .pCmd | .pWait | .pRd => false

/-- `raise E()` (R254), the one way an operation ends on an error: no further request is issued, a failed
INIT leaves no calibration word, and the error's code is the response. No program counter, mode or mask
is saved and control goes to no handler (R255), so there is no return from it (R258): the engine is in
IDLE and accepts the next request. -/
def raise (e : ErrorKind) (s : State) : State :=
  respond e.status none (if s.phase.isInit then clearCalibration s else s)

/-! ## Taking an answer (R61, R68, R71, R79, R251, R266) -/

/-- The answer to an outstanding `BusRead`: two bytes go on as the word they make; a failure raises
TransportError; another length or kind of answer is refused; without an answer the engine is stuck. -/
def readAnswer (s : State) (go : Word16 → State → Outcome) : Outcome :=
  match s.inputs with
  | .answer (.bytes [b0, b1]) :: rest => go (word16 b0 b1) { s with inputs := rest }
  | .answer (.bytes bs) :: _ => .refused (.answerLength bs.length)
  | .answer .failure :: rest => .next (raise .transport { s with inputs := rest })
  | .answer .ok :: _ => .refused .answerKind
  | .answer .slept :: _ => .refused .answerKind
  | _ => .fault .stuck

/-- The answer to an outstanding `BusWrite`. -/
def writeAnswer (s : State) (go : State → Outcome) : Outcome :=
  match s.inputs with
  | .answer .ok :: rest => go { s with inputs := rest }
  | .answer .failure :: rest => .next (raise .transport { s with inputs := rest })
  | .answer (.bytes _) :: _ => .refused .answerKind
  | .answer .slept :: _ => .refused .answerKind
  | _ => .fault .stuck

/-- The completion of an outstanding `Sleep`, which never fails (R71). -/
def sleepAnswer (s : State) (go : State → Outcome) : Outcome :=
  match s.inputs with
  | .answer .slept :: rest => go { s with inputs := rest }
  | .answer (.bytes _) :: _ => .refused .answerKind
  | .answer .ok :: _ => .refused .answerKind
  | .answer .failure :: _ => .refused .answerKind
  | _ => .fault .stuck

/-! ## The shapes of the instructions -/

/-- A request for an operation, with what acceptance does: held while BUSY = 1 (R267). -/
def requested (opword : Byte) (s : State) (accepted : State → Outcome) : Outcome :=
  if s.busy then .next (hold opword s) else accepted s

/-- Acceptance of TRAW, TEMP and PRES (R36, R252): UninitializedError before any request if
CAL_VALID = 0, else the temperature command. -/
def startConversion (opword : Byte) (s : State) : Outcome :=
  if s.calValid then .next (enter .tCmd (accept opword s))
  else .next (raise .uninitialized (accept opword s))

/-- The request of an emitted word, performed in the phase that waits on it; in any other phase that
request is not outstanding (R266). -/
def performed (i : Instr) (s : State) (go : Outcome) : Outcome :=
  if s.emitted = some i then go else .refused .answerNotOutstanding

end Sys2Proof.Machine
end

