-- ==== Sys2Proof/Machine/Calibration.lean ====
section
/-! DEFINITION. INIT and the ten calibration reads (41_calibration.md). -/

namespace Sys2Proof.Machine

open Sys2Proof

/-- INIT (R155): refused while CAL_VALID = 1 (R157), else its first read is issued. -/
def execInit (s : State) : Outcome :=
  requested 0x01 s fun s =>
    if s.calValid then .refused .initWhileCalValid
    else .next (enter (.initRd 0) (accept 0x01 s))

/-- After calibration word k is written: the next read (R158: ascending k), or after the tenth
`CAL_VALID <- 1` and the response (R155). -/
def afterCalibrationWord (k : Fin 10) (s : State) : State :=
  if h : k.val + 1 < 10 then enter (.initRd ⟨k.val + 1, h⟩) s
  else respond .ok none { s with calValid := true }

/-- Phase `INIT_RD(k+1)`: the read of one calibration word (R155). -/
def calibrationRead (k : Fin 10) (s : State) : Outcome :=
  performed (calInstr k) s <|
    readAnswer s fun w s => .next (afterCalibrationWord k (writeCalibration k w s))

/-- `BusRead(0x8E, 2)` (R155). -/
def execCalAddrC1 (s : State) : Outcome := calibrationRead 0 s

/-- `BusRead(0x90, 2)` (R155). -/
def execCalAddrC2 (s : State) : Outcome := calibrationRead 1 s

/-- `BusRead(0x92, 2)` (R155). -/
def execCalAddrC3 (s : State) : Outcome := calibrationRead 2 s

/-- `BusRead(0x94, 2)` (R155). -/
def execCalAddrC4 (s : State) : Outcome := calibrationRead 3 s

/-- `BusRead(0x96, 2)` (R155). -/
def execCalAddrC5 (s : State) : Outcome := calibrationRead 4 s

/-- `BusRead(0x98, 2)` (R155). -/
def execCalAddrC6 (s : State) : Outcome := calibrationRead 5 s

/-- `BusRead(0x9A, 2)` (R155). -/
def execCalAddrC7 (s : State) : Outcome := calibrationRead 6 s

/-- `BusRead(0x9C, 2)` (R155). -/
def execCalAddrC8 (s : State) : Outcome := calibrationRead 7 s

/-- `BusRead(0x9E, 2)` (R155). -/
def execCalAddrC9 (s : State) : Outcome := calibrationRead 8 s

/-- `BusRead(0xA0, 2)` (R155). -/
def execCalAddrC10 (s : State) : Outcome := calibrationRead 9 s

end Sys2Proof.Machine
end

