-- ==== Sys2Proof/Machine/Float.lean ====
section
/-! DEFINITION. Binary64 arithmetic on bit patterns, each operation the rounded value of the exact
rational result (40_arith.md rules R124 to R138). -/

namespace Sys2Proof.Machine

open Sys2Proof

/-- The rational 2^e. -/
def pow2 (e : Int) : Rat := if 0 ≤ e then ((2 ^ e.toNat : Nat) : Rat) else mkRat 1 (2 ^ (-e).toNat)

/-! ## The format (R100, R124): bit 63 sign, bits 62..52 biased exponent, bits 51..0 fraction -/

/-- Bit 63. -/
def F64.sign (x : F64) : Bool := x.getLsbD 63

/-- The biased exponent, bits 62..52. -/
def F64.expField (x : F64) : Nat := x.toNat / 2 ^ 52 % 2 ^ 11

/-- The fraction, bits 51..0. -/
def F64.fraction (x : F64) : Nat := x.toNat % 2 ^ 52

/-- The integer significand: precision 53 bits (R124), the leading one implicit unless the exponent
field is 0. -/
def F64.significand (x : F64) : Nat :=
  if F64.expField x = 0 then F64.fraction x else 2 ^ 52 + F64.fraction x

/-- The power of two that scales the significand. -/
def F64.scale (x : F64) : Int := (max (F64.expField x) 1 : Nat) - 1075

/-- Neither an infinity nor a NaN. -/
def F64.isFinite (x : F64) : Bool := F64.expField x != 2047

/-- The exact rational value of a finite pattern (R136). -/
def F64.exact (x : F64) : Rat :=
  (if F64.sign x then -1 else 1) * (F64.significand x : Rat) * pow2 (F64.scale x)

/-! ## Rounding -/

/-- `RHE(q)`: the integer nearest q, the even one when q is halfway (R134). -/
def rhe (q : Rat) : Int :=
  let f := q.floor
  let r := q - (f : Rat)
  if r < mkRat 1 2 then f
  else if mkRat 1 2 < r then f + 1
  else if f % 2 = 0 then f else f + 1

/-- The exponent of a positive rational: the integer l with 2^l ≤ q < 2^(l+1). -/
def floorLog2 (q : Rat) : Int :=
  let l : Int := (Nat.log2 q.num.natAbs : Int) - (Nat.log2 q.den : Int)
  if pow2 l ≤ q then l else l - 1

/-- The exponent of the last place of the binary64 values around a positive rational: 53 bits of
precision, and never below that of the subnormals. -/
def lastPlace (q : Rat) : Int := max (floorLog2 q - 52) (-1074)

/-- The pattern, without its sign bit, of a non-negative rational rounded to the nearest binary64 value
with ties to even (R14, R126). The carry out of the significand runs into the exponent field. -/
def flMagnitude (q : Rat) : Nat :=
  if q = 0 then 0
  else (lastPlace q + 1074).toNat * 2 ^ 52 + (rhe (q / pow2 (lastPlace q))).toNat

/-- `fl(q)`: the binary64 value nearest q, ties to even (R14, R126); a zero takes the sign it is given
(R133). `none` where the rounded magnitude is no finite binary64 value. -/
def fl (zeroSign : Bool) (q : Rat) : Option F64 :=
  let negative := if q = 0 then zeroSign else decide (q < 0)
  let m := flMagnitude |q|
  if m < 2047 * 2 ^ 52 then some (BitVec.ofNat 64 ((if negative then 2 ^ 63 else 0) + m)) else none

/-- `fl(q)` as the result of a computation; the free value where R126 gives none. -/
def flOf (c : FloatCase) (zeroSign : Bool) (q : Rat) : F64 :=
  (fl zeroSign q).getD (Config.floatUnstated c)

/-! ## The operations, each rounded once (R126, R127) -/

/-- `f64(i)` (R125); `f64(0)` is +0 (R133). -/
def f64 (i : Int) : F64 := flOf (.convert i) false (i : Rat)

/-- `fadd(a, b)` (R126). A zero sum is +0 unless both operands are negative (R133). -/
def fadd (a b : F64) : F64 :=
  if F64.isFinite a && F64.isFinite b then
    flOf (.add a b) (F64.sign a && F64.sign b) (F64.exact a + F64.exact b)
  else Config.floatUnstated (.add a b)

/-- `fsub(a, b)` (R126). A zero difference is +0 unless a is negative and b is not (R133). -/
def fsub (a b : F64) : F64 :=
  if F64.isFinite a && F64.isFinite b then
    flOf (.sub a b) (F64.sign a && !F64.sign b) (F64.exact a - F64.exact b)
  else Config.floatUnstated (.sub a b)

/-- `fmul(a, b)` (R126). A product has the exclusive-or of the signs (R133). -/
def fmul (a b : F64) : F64 :=
  if F64.isFinite a && F64.isFinite b then
    flOf (.mul a b) (F64.sign a ^^ F64.sign b) (F64.exact a * F64.exact b)
  else Config.floatUnstated (.mul a b)

/-- `fdiv(a, b)` (R126). A quotient has the exclusive-or of the signs (R133). -/
def fdiv (a b : F64) : F64 :=
  if F64.isFinite a && F64.isFinite b && F64.exact b != 0 then
    flOf (.div a b) (F64.sign a ^^ F64.sign b) (F64.exact a / F64.exact b)
  else Config.floatUnstated (.div a b)

/-- `ROUND2(v)` (R136): the binary64 value nearest N/100 where N = RHE(100·v); a zero result keeps the
sign of v (R137). -/
def round2 (v : F64) : F64 :=
  if F64.isFinite v then
    flOf (.round2 v) (F64.sign v) ((rhe (100 * F64.exact v) : Rat) / 100)
  else Config.floatUnstated (.round2 v)

/-- `HUND2DEG(n)` (R138). -/
def hund2deg (n : Int) : F64 := fdiv (f64 n) (f64 100)

end Sys2Proof.Machine
end

