-- ==== Sys2Proof/Machine/Temperature.lean ====
section
/-! DEFINITION. The temperature datapath, TRAW, TEMP and the temperature command (42_temperature.md). -/

namespace Sys2Proof.Machine

open Sys2Proof

/-- `TCOMP(C1, C2, tr)` (R180), its steps in the stated order (R181). -/
def tcomp (c1 c2 tr : Int) : Int :=
  let p := c1 * tr
  let a := asr p 8
  let b := shl c2 6
  let s := a + b
  let m := s * 100
  asr m 16

/-- `TDEG(temp)` (R184). -/
def tdeg (temp : Int) : F64 := hund2deg temp

/-- TRAW's RESULT: the hundredths as 64-bit two's complement (R100). -/
def trawResult (temp : Int) : BitVec 64 := BitVec.ofInt 64 temp

/-- TRAW (R185), its acceptance. -/
def execTraw (s : State) : Outcome := requested 0x02 s (startConversion 0x02)

/-- TEMP (R186), its acceptance. -/
def execTemp (s : State) : Outcome := requested 0x03 s (startConversion 0x03)

/-- A command write answered with success is followed by its settle delay (R36, R183, R211). -/
def commandWrite (i : Instr) (wait : Phase) (s : State) : Outcome :=
  performed i s (writeAnswer s fun s => .next (enter wait s))

/-- Phase T_CMD: `BusWrite(0xF1, [0x03])` (R183). -/
def execSensorCmdTemp (s : State) : Outcome := commandWrite .sensorCmdTemp .tWait s

/-- A temperature operation ends with its compute (R185, R186): TCOMP of C1, C2 and TR, encoded as the
operation says. -/
def endTemperature (encodeResult : Int → BitVec 64) (s : State) : State :=
  respond .ok
    (some (encodeResult (tcomp (s.coefficient 0) (s.coefficient 1) (decS16 s.tr.value)))) s

/-- Phase T_RD: the raw temperature goes to TR (R183), and CUROP says how the operation goes on (R36):
TRAW and TEMP end with their compute, PRES with its own conversion. -/
def temperatureRead (s : State) : Outcome :=
  readAnswer s fun w s =>
    let s := { s with tr := .written w }
    match decodeByte .hostOp s.curop.value with
    | some .traw => .next (endTemperature trawResult s)
    | some .temp => .next (endTemperature tdeg s)
    | _ => if s.mode.isSome then .next (enter .pCmd s) else .fault .noSequence

end Sys2Proof.Machine
end

