-- ==== Sys2Proof/Machine/Pressure.lean ====
section
/-! DEFINITION. The pressure datapath, PRES in its four modes and their command bytes
(43_pressure.md). -/

namespace Sys2Proof.Machine

open Sys2Proof

/-! ## The datapath, one rounding per operation, in the grouping of the rules (R127 to R129) -/

/-- `PS(C3, C4, C5, C9, tr)`, the sensitivity (R212). -/
def ps (c3 c4 c5 c9 tr : Int) : F64 :=
  let s1 := fdiv (f64 (c4 * tr)) (f64 (2 ^ 17))
  let s2a := fdiv (f64 (c5 * tr)) (f64 (2 ^ 15))
  let s2b := fmul s2a (f64 tr)
  let s2 := fdiv s2b (f64 (2 ^ 19))
  let s3a := fdiv (f64 (c9 * tr)) (f64 (2 ^ 15))
  let s3b := fmul s3a (f64 tr)
  let s3c := fdiv s3b (f64 (2 ^ 15))
  let s3d := fmul s3c (f64 tr)
  let s3 := fdiv s3d (f64 (2 ^ 16))
  fadd (fadd (fadd (f64 c3) s1) s2) s3

/-- `PO(C6, C7, C8, C9, tr)`, the offset (R213). -/
def po (c6 c7 c8 c9 tr : Int) : F64 :=
  let o0 := f64 (c6 * 16384)
  let o1 := fdiv (f64 (c7 * tr)) (f64 (2 ^ 3))
  let o2a := fdiv (f64 (c8 * tr)) (f64 (2 ^ 15))
  let o2b := fmul o2a (f64 tr)
  let o2 := fdiv o2b (f64 (2 ^ 4))
  let o3a := fdiv (f64 (c9 * tr)) (f64 (2 ^ 15))
  let o3b := fmul o3a (f64 tr)
  let o3c := fdiv o3b (f64 (2 ^ 16))
  let o3 := fmul o3c (f64 tr)
  fadd (fadd (fadd o0 o1) o2) o3

/-- `PX(S, O, p)`, the uncorrected pressure in pascals (R214). -/
def px (s o : F64) (p : Int) : F64 :=
  let t := fmul s (f64 p)
  let u := fadd t o
  fdiv u (f64 (2 ^ 14))

/-- `PPA(X, C10)`, the corrected pressure in pascals (R215). -/
def ppa (x : F64) (c10 : Int) : F64 :=
  let d := fsub x (f64 75000)
  let q := fmul d d
  let q2 := fdiv q (f64 (2 ^ 16))
  let r := fsub q2 (f64 9537)
  let mm := fmul r (f64 c10)
  let m2 := fdiv mm (f64 (2 ^ 16))
  fadd x m2

/-- `PHPA(pa)`, hectopascals rounded to two decimal places (R216). -/
def phpa (pa : F64) : F64 := round2 (fdiv pa (f64 100))

/-- `PCOMP(C3..C10, tr, p)` (R225). -/
def pcomp (c3 c4 c5 c6 c7 c8 c9 c10 tr p : Int) : F64 :=
  phpa (ppa (px (ps c3 c4 c5 c9 tr) (po c6 c7 c8 c9 tr) p) c10)

/-! ## The operations -/

/-- PRES.LOW (R218), its acceptance. -/
def execPresLow (s : State) : Outcome :=
  requested (presOpword .low) s (startConversion (presOpword .low))

/-- PRES.STANDARD (R219), its acceptance. -/
def execPresStandard (s : State) : Outcome :=
  requested (presOpword .standard) s (startConversion (presOpword .standard))

/-- PRES.HIGH (R220), its acceptance. -/
def execPresHigh (s : State) : Outcome :=
  requested (presOpword .high) s (startConversion (presOpword .high))

/-- PRES.ULTRA (R221), its acceptance. -/
def execPresUltra (s : State) : Outcome :=
  requested (presOpword .ultra) s (startConversion (presOpword .ultra))

/-- Phase P_CMD of PRES.LOW: `BusWrite(0xF1, [0x00])` (R211). -/
def execSensorCmdLow (s : State) : Outcome := commandWrite .sensorCmdLow .pWait s

/-- Phase P_CMD of PRES.STANDARD: `BusWrite(0xF1, [0x01])` (R211). -/
def execSensorCmdStandard (s : State) : Outcome := commandWrite .sensorCmdStandard .pWait s

/-- Phase P_CMD of PRES.HIGH: `BusWrite(0xF1, [0x10])` (R211). -/
def execSensorCmdHigh (s : State) : Outcome := commandWrite .sensorCmdHigh .pWait s

/-- Phase P_CMD of PRES.ULTRA: `BusWrite(0xF1, [0x11])` (R211). -/
def execSensorCmdUltra (s : State) : Outcome := commandWrite .sensorCmdUltra .pWait s

/-- The pressure of the engine's registers: PCOMP of C3..C10, TR and PRAW (R217, R225). -/
def State.pressure (s : State) : F64 :=
  pcomp (s.coefficient 2) (s.coefficient 3) (s.coefficient 4) (s.coefficient 5) (s.coefficient 6)
    (s.coefficient 7) (s.coefficient 8) (s.coefficient 9) (decS16 s.tr.value) (decU16 s.praw.value)

/-- PRES ends with its compute (R217). -/
def endPressure (s : State) : State := respond .ok (some s.pressure) s

/-- Phase P_RD: the raw pressure goes to PRAW (R211), and the operation ends with its compute. A CUROP
that is no PRES opword has no such phase. -/
def pressureRead (s : State) : Outcome :=
  readAnswer s fun w s =>
    let s := { s with praw := .written w }
    if s.mode.isSome then .next (endPressure s) else .fault .noSequence

end Sys2Proof.Machine
end

