-- ==== Sys2Proof/Machine/HostPort.lean ====
section
/-! DEFINITION. The host's side of the engine that issues no operation (the read ports, the arrival of
a request), the reset, and the phases whose request has no row in the opcode table (the sleeps and the
data reads). -/

namespace Sys2Proof.Machine

open Sys2Proof

/-- The value of a host read (R45, R101). RESULT is refused while RVALID = 0, and CALREAD(k) while
CAL_VALID = 0 or with k outside 1..10 (R266). -/
def readPort (r : HostRead) (s : State) : Host.Outcome HostValue Fault Refusal :=
  match r with
  | .status => .next (.status s.status.code)
  | .rvalid => .next (.flag s.rvalid)
  | .calValid => .next (.flag s.calValid)
  | .busy => .next (.flag s.busy)
  | .result => if s.rvalid then .next (.result s.result.value) else .refused .resultNotValid
  | .cal k =>
    if h : s.calValid = true ∧ 1 ≤ k ∧ k ≤ 10 then
      .next (.coefficient (s.coefficient ⟨k - 1, by omega⟩))
    else .refused (.calreadRefused k)

/-- The host reads a register: it gets the value, and no register changes (R45). -/
def hostRead (r : HostRead) (s : State) : Outcome :=
  match readPort r s with
  | .next v => .next (emit (.gave r v) s)
  | .fault f => .fault f
  | .refused x => .refused x

/-- What a line of a host program does to the engine (R101): an operation or `PRES` is a request, a
`READ` a read. A line that is neither has none. -/
def hostInput : HostLine → Option Input
  | .read r => some (.read r)
  | .op i => (HostLine.op i).opword.map Input.request
  | .pres => HostLine.pres.opword.map Input.request

/-- Reset (R280): every register at its reset value. An operation in progress is abandoned with no
response, and the answer to its request is one that the engine will not take (R281). Requests not yet
accepted stay held (log entry 8). -/
def resetEngine (s : State) : State :=
  { State.reset with
    held := s.held
    inputs := s.inputs
    abandoned := if s.busy then s.abandoned + 1 else s.abandoned
    trace := s.trace }

/-- An answer to a request that an earlier reset abandoned is not taken by the engine (R281); where no
such request is left it is an answer to a request the engine did not issue (R266). -/
def lateAnswer (s : State) : Outcome :=
  if 0 < s.abandoned then .next { s with abandoned := s.abandoned - 1 }
  else .refused .answerNotOutstanding

/-- Phases T_WAIT and P_WAIT: the read after the delay is issued when the sleep has completed (R73). -/
def sleepDone (readPhase : Phase) (s : State) : Outcome :=
  sleepAnswer s fun s => .next (enter readPhase s)

/-- An answer comes while the request outstanding has no row in the opcode table. In IDLE no request is
outstanding (R266). In P_CMD and P_WAIT the request is that of CUROP's mode, and there is none where
CUROP is no PRES opword. -/
def answerPort (s : State) : Outcome :=
  match s.phase with
  | .tWait => sleepDone .tRd s
  | .tRd => temperatureRead s
  | .pRd => pressureRead s
  | .pWait => if s.mode.isSome then sleepDone .pRd s else .fault .noSequence
  | .pCmd => .fault .noSequence
  | .idle | .initRd _ | .tCmd => .refused .answerNotOutstanding

/-- No input is at hand: in IDLE nothing happens (R36: "no other transition exists"); in any other phase
the engine is stuck until an answer comes (R79, R269). -/
def noInput (s : State) : Outcome := if s.busy then .fault .stuck else .next s

end Sys2Proof.Machine
end

