-- ==== Sys2Proof/Machine/Dispatch.lean ====
section
/-! DEFINITION. One arm per row of the opcode table. -/

namespace Sys2Proof.Machine

open Sys2Proof

def exec (i : Instr) (s : State) : Host.Outcome State Fault Refusal :=
  match i with
  | .init => Sys2Proof.Machine.execInit s
  | .traw => Sys2Proof.Machine.execTraw s
  | .temp => Sys2Proof.Machine.execTemp s
  | .presLow => Sys2Proof.Machine.execPresLow s
  | .presStandard => Sys2Proof.Machine.execPresStandard s
  | .presHigh => Sys2Proof.Machine.execPresHigh s
  | .presUltra => Sys2Proof.Machine.execPresUltra s
  | .sensorCmdTemp => Sys2Proof.Machine.execSensorCmdTemp s
  | .sensorCmdLow => Sys2Proof.Machine.execSensorCmdLow s
  | .sensorCmdStandard => Sys2Proof.Machine.execSensorCmdStandard s
  | .sensorCmdHigh => Sys2Proof.Machine.execSensorCmdHigh s
  | .sensorCmdUltra => Sys2Proof.Machine.execSensorCmdUltra s
  | .calAddrC1 => Sys2Proof.Machine.execCalAddrC1 s
  | .calAddrC2 => Sys2Proof.Machine.execCalAddrC2 s
  | .calAddrC3 => Sys2Proof.Machine.execCalAddrC3 s
  | .calAddrC4 => Sys2Proof.Machine.execCalAddrC4 s
  | .calAddrC5 => Sys2Proof.Machine.execCalAddrC5 s
  | .calAddrC6 => Sys2Proof.Machine.execCalAddrC6 s
  | .calAddrC7 => Sys2Proof.Machine.execCalAddrC7 s
  | .calAddrC8 => Sys2Proof.Machine.execCalAddrC8 s
  | .calAddrC9 => Sys2Proof.Machine.execCalAddrC9 s
  | .calAddrC10 => Sys2Proof.Machine.execCalAddrC10 s

end Sys2Proof.Machine
end

