-- ==== Sys2Proof/Machine/Step.lean ====
section
/-! DEFINITION. One step of the machine, and how an opcode-table word is placed where the next step
finds it. -/

namespace Sys2Proof.Machine

open Sys2Proof

/-- A request is accepted (R36, R257): its opword is decoded, a reserved one is refused (R93). -/
def runRequest (opword : Byte) (s : State) : Host.Outcome State Fault Refusal :=
  match decodeByte .hostOp opword with
  | some i => exec i s
  | none => .refused (.reservedOpword opword)

/-- An answer comes (R36): the request outstanding is performed with it. -/
def runAnswer (s : State) : Host.Outcome State Fault Refusal :=
  match s.emitted with
  | some i => exec i s
  | none => answerPort s

/-- The head of the inputs acts on the engine. -/
def runInput (s : State) : Host.Outcome State Fault Refusal :=
  match s.inputs with
  | [] => noInput s
  | .answer _ :: _ => runAnswer s
  | .request w :: rest => .next (hold w { s with inputs := rest })
  | .read r :: rest => hostRead r { s with inputs := rest }
  | .lateAnswer :: rest => lateAnswer { s with inputs := rest }
  | .reset :: rest => .next (resetEngine { s with inputs := rest })

/-- One step: in IDLE the oldest held request is accepted (R267); otherwise the next input acts. -/
def step (s : State) : Host.Outcome State Fault Refusal :=
  match s.phase, s.held with
  | .idle, w :: rest => runRequest w { s with held := rest }
  | _, _ => runInput s

/-- The state in which the very next step runs the instruction of an opcode-table word. An opword (or a
word that is no instruction) is put at the front of the held requests, in IDLE. An emitted word is run
by the phase that waits on its request, with a successful answer at hand (log entry 13). -/
def State.withFetchWord (s : State) (nbits w : Nat) : State :=
  let opword : State := { s with phase := .idle, held := BitVec.ofNat 8 w :: s.held }
  let command (m : Mode) : State :=
    { s with phase := .pCmd, curop := .written (presOpword m), inputs := .answer .ok :: s.inputs }
  let calibration (k : Fin 10) : State :=
    { s with
      phase := .initRd k, curop := .written 0x01, inputs := .answer (.bytes [0, 0]) :: s.inputs }
  match decodeTableWord nbits w with
  | none => opword
  | some i =>
    match i with
    | .init | .traw | .temp | .presLow | .presStandard | .presHigh | .presUltra => opword
    | .sensorCmdTemp =>
      { s with phase := .tCmd, curop := .written 0x02, inputs := .answer .ok :: s.inputs }
    | .sensorCmdLow => command .low
    | .sensorCmdStandard => command .standard
    | .sensorCmdHigh => command .high
    | .sensorCmdUltra => command .ultra
    | .calAddrC1 => calibration 0
    | .calAddrC2 => calibration 1
    | .calAddrC3 => calibration 2
    | .calAddrC4 => calibration 3
    | .calAddrC5 => calibration 4
    | .calAddrC6 => calibration 5
    | .calAddrC7 => calibration 6
    | .calAddrC8 => calibration 7
    | .calAddrC9 => calibration 8
    | .calAddrC10 => calibration 9

end Sys2Proof.Machine
end

