-- ==== Sys2Proof/Safety.lean ====
section
/-! DEFINITION. What a safe run is: the invariant of the machine's registers, the requests the engine
may issue, the order of an operation's phases, and the end of a run. The claims are stated in these
terms. -/

namespace Sys2Proof.Machine

open Sys2Proof

/-! ## The phases of an operation -/

/-- The phases of a conversion: those of TRAW, TEMP and PRES (R35). -/
def Phase.isConversion : Phase → Bool
  | .tCmd | .tWait | .tRd | .pCmd | .pWait | .pRd => true
  | .idle | .initRd _ => false

/-- The phases that only PRES has (R35). -/
def Phase.isPressure : Phase → Bool
  | .pCmd | .pWait | .pRd => true
  | .idle | .initRd _ | .tCmd | .tWait | .tRd => false

/-- CUROP holds the opword of an operation that has the phase (R36). -/
def hasPhase (curop : Register 8) : Phase → Bool
  | .idle => true
  | .initRd _ => curop.holds && curop.value == 0x01
  | .tCmd | .tWait | .tRd =>
    curop.holds &&
      (curop.value == 0x02 || curop.value == 0x03 || (opwordMode curop.value).isSome)
  | .pCmd | .pWait | .pRd => curop.holds && (opwordMode curop.value).isSome

/-- How many answers an operation still needs at most, counted from the phase it is in (R36). -/
def Phase.answersLeft : Phase → Nat
  | .idle => 0
  | .initRd k => 10 - k.val
  | .tCmd => 6
  | .tWait => 5
  | .tRd => 4
  | .pCmd => 3
  | .pWait => 2
  | .pRd => 1

/-- The transitions of the sequencer (R36), other than those to IDLE: from IDLE an operation's first
phase, and from a phase the next row of its operation. -/
def Phase.follows : Phase → Phase → Bool
  | .idle, .initRd k => k == 0
  | .idle, .tCmd => true
  | .initRd k, .initRd l => l.val == k.val + 1
  | .tCmd, .tWait => true
  | .tWait, .tRd => true
  | .tRd, .pCmd => true
  | .pCmd, .pWait => true
  | .pWait, .pRd => true
  | _, _ => false

/-! ## The invariant of the registers -/

/-- What holds of the registers at reset and after every step. -/
structure Inv (s : State) : Prop where
  /-- While CAL_VALID = 1 every calibration word holds a value (R33). -/
  calibrated : s.calValid = true → ∀ k : Fin 10, s.calw[k].holds = true
  /-- While CAL_VALID = 0 no calibration word holds a value, but those INIT has read (R33, R156). -/
  uncalibrated : s.calValid = false → s.phase.isInit = false →
    ∀ k : Fin 10, s.calw[k].holds = false
  /-- INIT runs only while CAL_VALID = 0 (R34), and in `INIT_RD(k+1)` it has read the first k words. -/
  loading : ∀ k, s.phase = .initRd k →
    s.calValid = false ∧ ∀ j : Fin 10, s.calw[j].holds = decide (j < k)
  /-- A conversion runs only while CAL_VALID = 1 (R252). -/
  gate : s.phase.isConversion = true → s.calValid = true
  /-- CUROP holds the opword of the operation in progress (R37). -/
  operation : hasPhase s.curop s.phase = true
  /-- TR holds the raw temperature of the PRES operation in progress (R38). -/
  latched : s.phase.isPressure = true → s.tr.holds = true
  /-- RVALID = 1 exactly when RESULT holds a value (R41). -/
  resultValid : s.rvalid = s.result.holds
  /-- RVALID = 0 while an operation is in progress (R36). -/
  busyNoResult : s.busy = true → s.rvalid = false
  /-- A result goes with the status OK (R41). -/
  resultOk : s.rvalid = true → s.status = .ok

/-! ## Requests, responses and runs -/

/-- Every request the engine can issue (R64, R94, R291). -/
def allowedRequests : List Request :=
  (List.finRange 10).map (fun k => .busRead devAddr (calAddr k) 2) ++
  [.busRead devAddr dataRegister 2,
   .busWrite devAddr commandRegister [0x03], .busWrite devAddr commandRegister [0x00],
   .busWrite devAddr commandRegister [0x01], .busWrite devAddr commandRegister [0x10],
   .busWrite devAddr commandRegister [0x11],
   .sleep 5, .sleep 20, .sleep 19, .sleep 67]

/-- The request of an event. -/
def Event.request? : Event → Option Request
  | .issued r => some r
  | .responded _ _ | .gave _ _ => none

/-- The response of an event. -/
def Event.response? : Event → Option (Status × Option (BitVec 64))
  | .responded st v => some (st, v)
  | .issued _ | .gave _ _ => none

/-- The requests of a trace, in the order they were issued. -/
def requestsOf (tr : List Event) : List Request := tr.filterMap Event.request?

/-- The responses of a trace, in order. -/
def responsesOf (tr : List Event) : List (Status × Option (BitVec 64)) :=
  tr.filterMap Event.response?

/-- A run is complete when every request has been accepted and has ended (R293): nothing is in progress,
held or still to come. R293's definition says nothing of a request that a reset abandoned; that such a run
counts as complete, whether or not the abandoned request's answer has come, is the model's choice (log
entry 23). -/
def State.complete (s : State) : Prop := s.phase = .idle ∧ s.held = [] ∧ s.inputs = []

/-- The answers to ten calibration reads, one pair of bytes each. -/
def calibrationAnswers (bytes : Fin 10 → Byte × Byte) (n : Nat) : List Input :=
  ((List.finRange 10).take n).map (fun k => .answer (.bytes [(bytes k).1, (bytes k).2]))

/-- The calibration file that the ten byte pairs make (R155). -/
def calibrationFile (bytes : Fin 10 → Byte × Byte) : Vector (Register 16) 10 :=
  Vector.ofFn (fun k => .written (word16 (bytes k).1 (bytes k).2))

/-- The calibration reads of INIT, the first n of them (R158). -/
def calibrationRequests (n : Nat) : List Request :=
  ((List.finRange 10).take n).map (fun k => .busRead devAddr (calAddr k) 2)

/-! ## What a register with no value can show (R44) -/

/-- A register without the bits that are no value. -/
def Register.forget {w : Nat} (r : Register w) : Register w := if r.holds then r else .atReset

/-- A state without the bits of the registers that hold no value. -/
def State.forget (s : State) : State :=
  { s with
    calw := s.calw.map Register.forget
    curop := s.curop.forget
    tr := s.tr.forget
    praw := s.praw.forget
    result := s.result.forget }

/-- What a step answers, without the bits of the registers that then hold no value. -/
def forgetOutcome : Outcome → Outcome
  | .next s => .next s.forget
  | .fault f => .fault f
  | .refused x => .refused x

/-! ## The pressure datapath and its values -/

/-- Every value the pressure datapath computes, in order, from f64(C4*tr) to the result (R212 to
R216). -/
def pressureValues (c3 c4 c5 c6 c7 c8 c9 c10 tr p : Int) : List F64 :=
  let s1 := fdiv (f64 (c4 * tr)) (f64 (2 ^ 17))
  let s2a := fdiv (f64 (c5 * tr)) (f64 (2 ^ 15))
  let s2b := fmul s2a (f64 tr)
  let s2 := fdiv s2b (f64 (2 ^ 19))
  let s3a := fdiv (f64 (c9 * tr)) (f64 (2 ^ 15))
  let s3b := fmul s3a (f64 tr)
  let s3c := fdiv s3b (f64 (2 ^ 15))
  let s3d := fmul s3c (f64 tr)
  let s3 := fdiv s3d (f64 (2 ^ 16))
  let sa := fadd (f64 c3) s1
  let sb := fadd sa s2
  let sens := fadd sb s3
  let o0 := f64 (c6 * 16384)
  let o1 := fdiv (f64 (c7 * tr)) (f64 (2 ^ 3))
  let o2a := fdiv (f64 (c8 * tr)) (f64 (2 ^ 15))
  let o2b := fmul o2a (f64 tr)
  let o2 := fdiv o2b (f64 (2 ^ 4))
  let o3c := fdiv s3b (f64 (2 ^ 16))
  let o3 := fmul o3c (f64 tr)
  let oa := fadd o0 o1
  let ob := fadd oa o2
  let off := fadd ob o3
  let t := fmul sens (f64 p)
  let u := fadd t off
  let x := fdiv u (f64 (2 ^ 14))
  let d := fsub x (f64 75000)
  let q := fmul d d
  let q2 := fdiv q (f64 (2 ^ 16))
  let r := fsub q2 (f64 9537)
  let mm := fmul r (f64 c10)
  let m2 := fdiv mm (f64 (2 ^ 16))
  let pa := fadd x m2
  let hpa := fdiv pa (f64 100)
  [f64 (c4 * tr), s1, f64 (c5 * tr), s2a, s2b, s2, f64 (c9 * tr), s3a, s3b, s3c, s3d, s3, f64 c3, sa,
   sb, sens, o0, f64 (c7 * tr), o1, f64 (c8 * tr), o2a, o2b, o2, o3c, o3, oa, ob, off, f64 tr, f64 p,
   t, u, x, d, q, q2, r, f64 c10, mm, m2, pa, hpa, round2 hpa]

/-- x is the finite binary64 value nearest q, and of two equally near the one with the even significand
(R14, R126: nearest, ties to even). -/
def NearestEven (x : F64) (q : Rat) : Prop :=
  F64.isFinite x = true ∧
  ∀ y, F64.isFinite y = true → |F64.exact x - q| ≤ |F64.exact y - q| ∧
    (F64.exact y ≠ F64.exact x → |F64.exact x - q| = |F64.exact y - q| →
      F64.significand x % 2 = 0)

/-- C3, C4 and pressure_raw are u16; C5..C10 and tr are s16 (R9, R11). -/
def isU16 (i : Int) : Prop := 0 ≤ i ∧ i ≤ 65535

/-- A signed 16-bit value (R11). -/
def isS16 (i : Int) : Prop := -32768 ≤ i ∧ i ≤ 32767

end Sys2Proof.Machine
end

