-- ==== Sys2Proof/Certificates/Slice0/Obligations.lean ====
section
/-! DEFINITION. The statements about the machine. -/

open Sys2Proof Sys2Proof.Machine

/-! ## Encodings -/

/-- Decoding and encoding are inverse, format by format (R90, R91, R94, R96): every row of the table decodes,
in its own format, to itself, whatever bytes follow it, and a byte sequence that decodes to an instruction
is the encoding of it, with the bytes that follow. -/
def Obligations.DecodeAndEncodeAgree : Prop :=
  (∀ (i : Instr) (rest : List Byte), decode i.format (encode i ++ rest) = some (i, rest)) ∧
  (∀ (f : Format) (bs rest : List Byte) (i : Instr), decode f bs = some (i, rest) →
    i.format = f ∧ bs = encode i ++ rest)

/-- R93: the reserved opwords are the 249 others, and a held one is refused in IDLE, with no next
state. -/
def Obligations.ReservedOpwordIsRefused : Prop :=
  (∀ w : Byte, decodeByte .hostOp w = none ↔
    w ∉ [0x01#8, 0x02#8, 0x03#8, 0x80#8, 0x81#8, 0x90#8, 0x91#8]) ∧
  ((List.range 256).filter (fun n => (decodeByte .hostOp (BitVec.ofNat 8 n)).isNone)).length = 249 ∧
  (∀ (s : State) (w : Byte) (rest : List Byte), s.phase = .idle → s.held = w :: rest →
    decodeByte .hostOp w = none → step s = .refused (.reservedOpword w))

/-- R95: the four mode bytes, whose bits 7..5 and 3..1 are 0. With R92: the opword of PRES carries the mode
byte in bits 4 and 0, and no other opword has a mode. -/
def Obligations.PresOpwordCarriesTheModeByte : Prop :=
  (modeByte .low = 0x00 ∧ modeByte .standard = 0x01 ∧ modeByte .high = 0x10 ∧
    modeByte .ultra = 0x11 ∧ ∀ m : Mode, modeByte m &&& 0b11101110 = 0) ∧
  (∀ m : Mode, presOpword m &&& 0x11 = modeByte m ∧ opwordMode (presOpword m) = some m ∧
    (presOpword m).toNat / 16 % 2 * 2 + (presOpword m).toNat % 2 =
      (match m with | .low => 0 | .standard => 1 | .high => 2 | .ultra => 3)) ∧
  (∀ (w : Byte) (m : Mode), opwordMode w = some m → w = presOpword m)

/-- Words written out from the tables of R91, R94 and R96 decode to the rows they stand for. -/
def Obligations.WrittenOutWordsDecode : Prop :=
  decode .hostOp [0b00000001] = some (.init, []) ∧
  decode .hostOp [0b00000010] = some (.traw, []) ∧
  decode .hostOp [0b10010001] = some (.presUltra, []) ∧
  decode .sensorCmd [0b00000011] = some (.sensorCmdTemp, []) ∧
  decode .sensorCmd [0b00010000] = some (.sensorCmdHigh, []) ∧
  decode .calAddr [0b10001110] = some (.calAddrC1, []) ∧
  decode .calAddr [0b10100000] = some (.calAddrC10, [])

/-- R96: the location of calibration word k is `0x8E + 2*(k - 1)`, and the ten are the source's list. -/
def Obligations.CalibrationLocations : Prop :=
  (∀ k : Fin 10, (calInstr k).byte = calAddr k ∧ (calAddr k).toNat = 0x8E + 2 * k.val) ∧
  (List.finRange 10).map calAddr =
    [0x8E, 0x90, 0x92, 0x94, 0x96, 0x98, 0x9A, 0x9C, 0x9E, 0xA0]

/-- R102: `PRES` with no mode assembles to the opword of `PRES.STANDARD`, and it is the only
pseudo-operation: a line that issues an operation reads, without its comment and the spaces around it, `PRES`
or one of the seven mnemonics of R101, which assemble to their own opwords (R91). Where spaces may stand is
the model's choice (log entry 21). -/
def Obligations.DefaultModeIsStandard : Prop :=
  (parseLine "PRES".toList).bind HostLine.opword = some 0x81 ∧
  presOpword .standard = 0x81 ∧
  ((["INIT", "TRAW", "TEMP", "PRES.LOW", "PRES.STANDARD", "PRES.HIGH", "PRES.ULTRA"].map
      (fun m => (parseLine m.toList).bind HostLine.opword)) =
    [some 0x01, some 0x02, some 0x03, some 0x80, some 0x81, some 0x90, some 0x91]) ∧
  (∀ (line : List Char) (l : HostLine) (w : Byte), parseLine line = some l → l.opword = some w →
    (∃ m : String, stripLine line = m.toList ∧
      (m, w) ∈ [("PRES", 0x81#8), ("INIT", 0x01), ("TRAW", 0x02), ("TEMP", 0x03),
        ("PRES.LOW", 0x80), ("PRES.STANDARD", 0x81), ("PRES.HIGH", 0x90), ("PRES.ULTRA", 0x91)]) ∧
    (l = .pres ∨ ∃ i : Instr, l = .op i ∧ i.format = .hostOp ∧ w = i.byte))

/-! ## Received words and the integer datapath -/

/-- R97: the first byte received is `word[7:0]`, the second `word[15:8]`; the rule is the same for the
calibration words and for both samples of the data register. -/
def Obligations.ReceivedWordsAreLittleEndian : Prop :=
  (∀ b0 b1 : Byte, (word16 b0 b1).extractLsb' 0 8 = b0 ∧ (word16 b0 b1).extractLsb' 8 8 = b1 ∧
    word16 b0 b1 = (b1.zeroExtend 16 <<< 8) ||| b0.zeroExtend 16) ∧
  (∀ (s t : State) (b0 b1 : Byte) (rest : List Input),
    s.inputs = .answer (.bytes [b0, b1]) :: rest → step s = .next t →
    (∀ k : Fin 10, s.phase = .initRd k → t.calw[k] = .written (word16 b0 b1)) ∧
    (s.phase = .tRd → t.tr = .written (word16 b0 b1)) ∧
    (s.phase = .pRd → t.praw = .written (word16 b0 b1)))

/-- R152: `DEC_S16` is the two's-complement value, in -32768..32767, with the source's boundary
values. -/
def Obligations.SignedDecodeIsTwosComplement : Prop :=
  (∀ w : Word16, decS16 w = w.toInt ∧ -32768 ≤ decS16 w ∧ decS16 w ≤ 32767 ∧
    decS16 w = if w.toNat ≤ 32767 then (w.toNat : Int) else (w.toNat : Int) - 65536) ∧
  decS16 0 = 0 ∧ decS16 32767 = 32767 ∧ decS16 32768 = -32768 ∧ decS16 65535 = -1

/-- R153: coefficient C(k+1), whose word is at location `0x8E + 2k`, is unsigned for C1..C4 and signed for
C5..C10, by its number alone. -/
def Obligations.CoefficientsDecodeByNumber : Prop :=
  ∀ (k : Fin 10) (w : Word16),
    (calInstr k).byte.toNat = 0x8E + 2 * k.val ∧
    (k.val < 4 → decCoefficient k w = decU16 w ∧ isU16 (decCoefficient k w)) ∧
    (4 ≤ k.val → decCoefficient k w = decS16 w ∧ isS16 (decCoefficient k w))

/-- R121: `asr(v, n)` is the floor of `v / 2^n`, for negative v too; TCOMP shifts by 8 and by 16. -/
def Obligations.ArithmeticShiftIsFloor : Prop :=
  (∀ (v : Int) (n : Nat), asr v n * 2 ^ n ≤ v ∧ v < (asr v n + 1) * 2 ^ n ∧
    asr v n = ⌊(v : Rat) / 2 ^ n⌋) ∧
  (∀ c1 c2 tr : Int, tcomp c1 c2 tr = asr ((asr (c1 * tr) 8 + shl c2 6) * 100) 16) ∧
  asr (-1) 8 = -1 ∧ asr (-256) 8 = -1 ∧ asr (-257) 8 = -2 ∧ asr 255 8 = 0

/-- R182: over every C1, C2 and tr, each intermediate of TCOMP lies in the range of R180, a 32-bit
two's-complement datapath computes TCOMP exactly, and the extremes are reached. -/
def Obligations.TemperatureFitsThirtyTwoBits : Prop :=
  (∀ w1 w2 w : Word16,
    let c1 := decU16 w1
    let c2 := decU16 w2
    let tr := decS16 w
    (-2147450880 ≤ c1 * tr ∧ c1 * tr ≤ 2147385345) ∧
    (-8388480 ≤ asr (c1 * tr) 8 ∧ asr (c1 * tr) 8 ≤ 8388224) ∧
    (0 ≤ shl c2 6 ∧ shl c2 6 ≤ 4194240) ∧
    (-8388480 ≤ asr (c1 * tr) 8 + shl c2 6 ∧ asr (c1 * tr) 8 + shl c2 6 ≤ 12582464) ∧
    (-838848000 ≤ (asr (c1 * tr) 8 + shl c2 6) * 100 ∧
      (asr (c1 * tr) 8 + shl c2 6) * 100 ≤ 1258246400) ∧
    (-12800 ≤ tcomp c1 c2 tr ∧ tcomp c1 c2 tr ≤ 19199) ∧
    ((((BitVec.ofInt 32 c1 * BitVec.ofInt 32 tr).sshiftRight 8 + BitVec.ofInt 32 c2 <<< 6)
      * 100#32).sshiftRight 16).toInt = tcomp c1 c2 tr) ∧
  tcomp 65535 65535 32767 = 19199 ∧ tcomp 65535 0 (-32768) = -12800

/-! ## Floating point and rounding -/

/-- R134: `RHE(q)` is the integer nearest q, and the even one when q is exactly halfway between two. -/
def Obligations.RheIsNearestTiesToEven : Prop :=
  ∀ (q : Rat) (n : Int), |(rhe q : Rat) - q| ≤ |(n : Rat) - q| ∧
    (n ≠ rhe q → |(rhe q : Rat) - q| = |(n : Rat) - q| → rhe q % 2 = 0)

/-- The four operations give the binary64 value nearest the exact result, ties to even (R126), wherever
the exact result has a magnitude of at most 2^1023. -/
def Obligations.FloatOperationsAreCorrectlyRounded : Prop :=
  ∀ a b : F64, F64.isFinite a = true → F64.isFinite b = true →
    (|F64.exact a + F64.exact b| ≤ pow2 1023 →
      NearestEven (fadd a b) (F64.exact a + F64.exact b)) ∧
    (|F64.exact a - F64.exact b| ≤ pow2 1023 →
      NearestEven (fsub a b) (F64.exact a - F64.exact b)) ∧
    (|F64.exact a * F64.exact b| ≤ pow2 1023 →
      NearestEven (fmul a b) (F64.exact a * F64.exact b)) ∧
    (F64.exact b ≠ 0 → |F64.exact a / F64.exact b| ≤ pow2 1023 →
      NearestEven (fdiv a b) (F64.exact a / F64.exact b))

/-- `f64(i)` is exact for |i| ≤ 2^53, and +0 for 0 (R125, R133). -/
def Obligations.IntegerConversionIsExact : Prop :=
  (∀ i : Int, -(2 ^ 53) ≤ i → i ≤ 2 ^ 53 →
    F64.isFinite (f64 i) = true ∧ F64.exact (f64 i) = (i : Rat)) ∧
  f64 0 = 0x0000000000000000#64

/-- Dividing by 2^k, 1 ≤ k ≤ 46, is exact while the exponent stays above the subnormal range (R130). -/
def Obligations.PowerOfTwoDivisionIsExact : Prop :=
  ∀ (x : F64) (k : Nat), F64.isFinite x = true → 1 ≤ k → k ≤ 46 →
    (F64.exact x = 0 ∨ k < F64.expField x) →
    F64.isFinite (fdiv x (f64 (2 ^ k))) = true ∧
      F64.exact (fdiv x (f64 (2 ^ k))) = F64.exact x / 2 ^ k

/-- A cancelling sum of operands of opposite signs is +0, and a product or quotient takes the
exclusive-or of the signs (R133). -/
def Obligations.SignsOfZerosAndProducts : Prop :=
  ∀ a b : F64, F64.isFinite a = true → F64.isFinite b = true →
    (F64.sign a ≠ F64.sign b → F64.exact a + F64.exact b = 0 →
      fadd a b = 0x0000000000000000#64) ∧
    (|F64.exact a * F64.exact b| ≤ pow2 1023 →
      F64.sign (fmul a b) = (F64.sign a ^^ F64.sign b)) ∧
    (F64.exact b ≠ 0 → |F64.exact a / F64.exact b| ≤ pow2 1023 →
      F64.sign (fdiv a b) = (F64.sign a ^^ F64.sign b))

/-- R137: a result that rounds to zero keeps the sign of v; with the rule's two examples, whose
arguments are the binary64 values written -0.001 and -0.005. -/
def Obligations.RoundingKeepsTheSignOfZero : Prop :=
  (∀ v : F64, F64.isFinite v = true → rhe (100 * F64.exact v) = 0 →
    round2 v = if F64.sign v then 0x8000000000000000#64 else 0x0000000000000000#64) ∧
  round2 0xBF50624DD2F1A9FC#64 = 0x8000000000000000#64 ∧
  round2 0xBF747AE147AE147B#64 = 0xBF847AE147AE147B#64

/-- `ROUND2(v)` is the binary64 value nearest N/100 for N = RHE(100·v), for |v| ≤ 2^1000 (R135,
R136). -/
def Obligations.RoundingToTwoPlaces : Prop :=
  ∀ v : F64, F64.isFinite v = true → |F64.exact v| ≤ pow2 1000 →
    NearestEven (round2 v) ((rhe (100 * F64.exact v) : Rat) / 100)

/-- R138: `HUND2DEG(n)` is n divided by 100.0, the binary64 value nearest n/100 for every n that R125
converts exactly, and +0 for 0. -/
def Obligations.HundredthsToDegrees : Prop :=
  (∀ n : Int, hund2deg n = fdiv (f64 n) 0x4059000000000000#64) ∧
  (∀ n : Int, -(2 ^ 53) ≤ n → n ≤ 2 ^ 53 → NearestEven (hund2deg n) ((n : Rat) / 100)) ∧
  hund2deg 0 = 0x0000000000000000#64

/-- No NaN, infinity or overflow arises in the pressure datapath: over every input, every value it
computes is finite and below 2^40 in magnitude, and the last of them is PCOMP's result (R131, R223). -/
def Obligations.PressureDatapathStaysFinite : Prop :=
  ∀ c3 c4 c5 c6 c7 c8 c9 c10 tr p : Int, isU16 c3 → isU16 c4 → isS16 c5 → isS16 c6 → isS16 c7 →
    isS16 c8 → isS16 c9 → isS16 c10 → isS16 tr → isU16 p →
    (∀ x ∈ pressureValues c3 c4 c5 c6 c7 c8 c9 c10 tr p,
      F64.isFinite x = true ∧ |F64.exact x| < pow2 40) ∧
    (pressureValues c3 c4 c5 c6 c7 c8 c9 c10 tr p).getLast? =
      some (pcomp c3 c4 c5 c6 c7 c8 c9 c10 tr p)

/-- No underflow and no subnormal arises in the pressure datapath: every value it computes is zero or at
least 2^-200 in magnitude (R131). The bound is the model's own: the spec's does not hold (log entry
14). -/
def Obligations.PressureDatapathNeverUnderflows : Prop :=
  ∀ c3 c4 c5 c6 c7 c8 c9 c10 tr p : Int, isU16 c3 → isU16 c4 → isS16 c5 → isS16 c6 → isS16 c7 →
    isS16 c8 → isS16 c9 → isS16 c10 → isS16 tr → isU16 p →
    ∀ x ∈ pressureValues c3 c4 c5 c6 c7 c8 c9 c10 tr p,
      F64.exact x = 0 ∨ pow2 (-200) ≤ |F64.exact x|

/-- The bound R131 and R223 give for the non-zero values of the pressure datapath, 2^-46. Expected to
FAIL: X - 75000 can be 2^-31, whose square is 2^-62 (log entry 14). -/
def Obligations.NonzeroPressureValuesAreAtLeastTwoToMinus46 : Prop :=
  ∀ c3 c4 c5 c6 c7 c8 c9 c10 tr p : Int, isU16 c3 → isU16 c4 → isS16 c5 → isS16 c6 → isS16 c7 →
    isS16 c8 → isS16 c9 → isS16 c10 → isS16 tr → isU16 p →
    ∀ x ∈ pressureValues c3 c4 c5 c6 c7 c8 c9 c10 tr p,
      F64.exact x = 0 ∨ pow2 (-46) ≤ |F64.exact x|

/-- S, O, X and pa are never -0 (R133). -/
def Obligations.PressureTermsAreNeverNegativeZero : Prop :=
  ∀ c3 c4 c5 c6 c7 c8 c9 c10 tr p : Int, isU16 c3 → isU16 c4 → isS16 c5 → isS16 c6 → isS16 c7 →
    isS16 c8 → isS16 c9 → isS16 c10 → isS16 tr → isU16 p →
    let sens := ps c3 c4 c5 c9 tr
    let off := po c6 c7 c8 c9 tr
    let x := px sens off p
    sens ≠ 0x8000000000000000#64 ∧ off ≠ 0x8000000000000000#64 ∧
      x ≠ 0x8000000000000000#64 ∧ ppa x c10 ≠ 0x8000000000000000#64

/-! ## A step runs the decoded instruction -/

/-- In IDLE the oldest held opword is decoded and run; in another phase an answer runs the word the phase
emits, and that word's byte decodes to it. That the oldest held opword runs, whatever inputs are to come, is
the model's choice (log entries 2 and 4), and so is an emitted word's exec as the meaning of its answer (log
entry 11). -/
def Obligations.StepRunsTheDecodedInstruction : Prop :=
  (∀ (s : State) (w : Byte) (rest : List Byte) (i : Instr), s.phase = .idle → s.held = w :: rest →
    decodeByte .hostOp w = some i → step s = exec i { s with held := rest }) ∧
  (∀ (s : State) (a : Answer) (rest : List Input) (i : Instr), s.inputs = .answer a :: rest →
    s.emitted = some i → step s = exec i s ∧ decodeByte i.format i.byte = some i)

/-! ## Acceptance -/

/-- INIT accepted in IDLE while CAL_VALID = 0: CUROP and RVALID are written, the first calibration read
is issued, and nothing else changes (R36, R155). RESULT holds no value while RVALID = 0: log entry 6; the bits
it is left with are free: log entry 24. -/
def Obligations.InitIsAccepted : Prop :=
  ∀ s : State, s.phase = .idle → s.calValid = false →
    exec .init s = .next { s with
      curop := .written 0x01, rvalid := false, result := s.lostResult, phase := .initRd 0,
      trace := s.trace ++ [.issued (.busRead 0x77 0x8E 2)] }

/-- TRAW, TEMP and the four PRES accepted in IDLE while CAL_VALID = 1: CUROP takes the opword, RVALID is
cleared, the temperature command is issued, and nothing else changes (R36, R183). RESULT: log entries 6 and
24. -/
def Obligations.ConversionIsAccepted : Prop :=
  ∀ (i : Instr) (s : State), i.format = .hostOp → i ≠ .init → s.phase = .idle → s.calValid = true →
    exec i s = .next { s with
      curop := .written i.byte, rvalid := false, result := s.lostResult, phase := .tCmd,
      trace := s.trace ++ [.issued (.busWrite 0x77 0xF1 [0x03])] }

/-- TRAW, TEMP and PRES accepted while CAL_VALID = 0 end at once with UninitializedError: STATUS is code 3,
no value is returned, no request is issued, and nothing else but CUROP changes (R252, R254). -/
def Obligations.UninitializedBeforeAnyRequest : Prop :=
  (∀ (i : Instr) (s : State), i.format = .hostOp → i ≠ .init → s.phase = .idle →
    s.calValid = false →
    exec i s = .next { s with
      curop := .written i.byte, status := .uninitializedError, rvalid := false,
      result := s.lostResult, trace := s.trace ++ [.responded .uninitializedError none] }) ∧
  Status.uninitializedError.code = 3

/-- R157: INIT requested in IDLE while CAL_VALID = 1 is refused. -/
def Obligations.SecondInitIsRefused : Prop :=
  ∀ s : State, s.phase = .idle → s.calValid = true → exec .init s = .refused .initWhileCalValid

/-- A request made while BUSY = 1 is held and nothing else changes; one that arrives in IDLE with nothing
held is taken too, and a held request is accepted in IDLE (R36, R267, R282). The model's choices: held
requests stand in the order of arrival and the oldest is accepted first (log entry 2); an arrival and an
acceptance are two steps, and acceptance comes before any further input (log entry 4); every opword is held,
a reserved one too, and judged at its turn (log entry 17). -/
def Obligations.RequestIsHeldWhileBusy : Prop :=
  (∀ (i : Instr) (s : State), i.format = .hostOp → s.phase ≠ .idle →
    exec i s = .next { s with held := s.held ++ [i.byte] }) ∧
  (∀ (s : State) (w : Byte) (rest : List Input), (s.phase ≠ .idle ∨ s.held = []) →
    s.inputs = .request w :: rest →
    step s = .next { s with held := s.held ++ [w], inputs := rest }) ∧
  (∀ (s : State) (w : Byte) (rest : List Byte) (i : Instr), s.phase = .idle → s.held = w :: rest →
    decodeByte .hostOp w = some i → step s = exec i { s with held := rest })

/-! ## The phases of an operation -/

/-- Each of the ten calibration reads, answered with two bytes, writes its word and issues the next read;
the tenth sets CAL_VALID and ends INIT with STATUS = OK and no value. Nothing else changes (R155, R158).
That the read is the meaning of its table row is the model's choice (log entry 11). -/
def Obligations.CalibrationReadsComplete : Prop :=
  ∀ (s : State) (k : Fin 10) (b0 b1 : Byte) (rest : List Input),
    s.phase = .initRd k → s.inputs = .answer (.bytes [b0, b1]) :: rest →
    exec (calInstr k) s = .next (
      if h : k.val + 1 < 10 then { s with
        inputs := rest, calw := s.calw.set k (.written (word16 b0 b1)),
        phase := .initRd ⟨k.val + 1, h⟩,
        trace := s.trace ++ [.issued (.busRead 0x77 (calAddr ⟨k.val + 1, h⟩) 2)] }
      else { s with
        inputs := rest, calw := s.calw.set k (.written (word16 b0 b1)), calValid := true,
        phase := .idle, status := .ok, rvalid := false, result := s.lostResult,
        trace := s.trace ++ [.responded .ok none] })

/-- Each of the five command writes, answered with success in the phase that waits on it, issues its
settle delay, 5 ms after the temperature command and 5, 20, 19 or 67 ms after a mode byte, and changes
nothing else (R183, R210, R211). That the write is the meaning of its table row is the model's choice (log
entry 11), and so are whole milliseconds (log entry 9). -/
def Obligations.CommandWritesComplete : Prop :=
  (∀ (s : State) (rest : List Input), s.phase = .tCmd → s.inputs = .answer .ok :: rest →
    exec .sensorCmdTemp s = .next { s with
      inputs := rest, phase := .tWait, trace := s.trace ++ [.issued (.sleep 5)] }) ∧
  (∀ (s : State) (m : Mode) (rest : List Input), s.phase = .pCmd →
    s.curop.value = presOpword m → s.inputs = .answer .ok :: rest →
    exec (modeInstr m) s = .next { s with
      inputs := rest, phase := .pWait,
      trace := s.trace ++ [.issued (.sleep
        (match m with | .low => 5 | .standard => 20 | .high => 19 | .ultra => 67))] })

/-- The data register is read when the settle delay has completed (R73, R183, R211), and nothing else
changes. -/
def Obligations.DelayIsFollowedByTheDataRead : Prop :=
  (∀ (s : State) (rest : List Input), s.phase = .tWait → s.inputs = .answer .slept :: rest →
    step s = .next { s with
      inputs := rest, phase := .tRd, trace := s.trace ++ [.issued (.busRead 0x77 0xF5 2)] }) ∧
  (∀ (s : State) (m : Mode) (rest : List Input), s.phase = .pWait →
    s.curop.value = presOpword m → s.inputs = .answer .slept :: rest →
    step s = .next { s with
      inputs := rest, phase := .pRd, trace := s.trace ++ [.issued (.busRead 0x77 0xF5 2)] })

/-- The temperature data read ends TRAW with TCOMP as 64-bit two's complement and TEMP with its degrees;
it latches TR and changes nothing but the response (R100, R183, R185, R186). -/
def Obligations.TemperatureOperationsEnd : Prop :=
  ∀ (s : State) (b0 b1 : Byte) (rest : List Input),
    s.phase = .tRd → s.inputs = .answer (.bytes [b0, b1]) :: rest →
    let temp := tcomp (decU16 s.calw[(0 : Fin 10)].value) (decU16 s.calw[(1 : Fin 10)].value)
      (decS16 (word16 b0 b1))
    (s.curop.value = 0x02 → step s = .next { s with
      inputs := rest, tr := .written (word16 b0 b1), phase := .idle, status := .ok,
      rvalid := true, result := .written (BitVec.ofInt 64 temp),
      trace := s.trace ++ [.responded .ok (some (BitVec.ofInt 64 temp))] }) ∧
    (s.curop.value = 0x03 → step s = .next { s with
      inputs := rest, tr := .written (word16 b0 b1), phase := .idle, status := .ok,
      rvalid := true, result := .written (tdeg temp),
      trace := s.trace ++ [.responded .ok (some (tdeg temp))] })

/-- The temperature data read of PRES latches TR and issues the mode byte, and nothing else changes (R211,
R217, R289). -/
def Obligations.PressureConversionStarts : Prop :=
  ∀ (s : State) (m : Mode) (b0 b1 : Byte) (rest : List Input),
    s.phase = .tRd → s.curop.value = presOpword m →
    s.inputs = .answer (.bytes [b0, b1]) :: rest →
    step s = .next { s with
      inputs := rest, tr := .written (word16 b0 b1), phase := .pCmd,
      trace := s.trace ++ [.issued (.busWrite 0x77 0xF1 [modeByte m])] }

/-- The pressure data read ends PRES with PCOMP of C3..C10, TR and the word read, whatever the mode (R217,
R222); it latches PRAW and changes nothing but the response. -/
def Obligations.PressureOperationsEnd : Prop :=
  ∀ (s : State) (m : Mode) (b0 b1 : Byte) (rest : List Input),
    s.phase = .pRd → s.curop.value = presOpword m →
    s.inputs = .answer (.bytes [b0, b1]) :: rest →
    let word (k : Fin 10) := s.calw[k].value
    let v := pcomp (decU16 (word 2)) (decU16 (word 3)) (decS16 (word 4)) (decS16 (word 5))
      (decS16 (word 6)) (decS16 (word 7)) (decS16 (word 8)) (decS16 (word 9))
      (decS16 s.tr.value) (decU16 (word16 b0 b1))
    step s = .next { s with
      inputs := rest, praw := .written (word16 b0 b1), phase := .idle, status := .ok,
      rvalid := true, result := .written v, trace := s.trace ++ [.responded .ok (some v)] }

/-! ## Errors, refusals and stuck states -/

/-- A transport failure ends the operation in every phase that waits on a read or a write: STATUS is code
2, no value is returned, no request is issued, a failed INIT leaves no calibration word, and nothing
else changes (R251, R254, R255). That TR and PRAW keep what they hold is the model's reading of R254's "may
hold values written earlier" (log entry 15); the bits of a register left with no value are free (log entry
24). -/
def Obligations.TransportFailureEndsTheOperation : Prop :=
  ∀ (s : State) (rest : List Input), s.inputs = .answer .failure :: rest →
    (∀ k, s.phase = .initRd k → step s = .next { s with
      inputs := rest, calw := s.lostCalibration, phase := .idle, status := .transportError,
      rvalid := false, result := s.lostResult,
      trace := s.trace ++ [.responded .transportError none] }) ∧
    (s.phase = .tCmd ∨ s.phase = .tRd ∨ s.phase = .pRd ∨
        (s.phase = .pCmd ∧ ∃ m, s.curop.value = presOpword m) →
      step s = .next { s with
        inputs := rest, phase := .idle, status := .transportError,
        rvalid := false, result := s.lostResult,
        trace := s.trace ++ [.responded .transportError none] }) ∧
    (∀ k : Fin 10, s.lostCalibration[k].holds = false) ∧ s.lostResult.holds = false ∧
    Status.transportError.code = 2

/-- R266: what the engine refuses, each with no next state. A held reserved opword in IDLE; INIT in IDLE
while CAL_VALID = 1; a host read of RESULT while RVALID = 0, or of CALREAD(k) while CAL_VALID = 0 or with k
outside 1..10; an answer that does not fit the outstanding request, a read answer of a length other than 2
among them; and an answer to a request the engine did not issue. The model's readings: an answer of
a kind the request cannot have is refused (log entry 10); an answer to no request left outstanding by a reset
is an input of its own, told by a count of the model's (log entry 22); a reserved opword, or an INIT, that is
held is refused at its turn (log entry 17). -/
def Obligations.RefusedInputs : Prop :=
  (∀ (s : State) (w : Byte) (rest : List Byte), s.phase = .idle → s.held = w :: rest →
    decodeByte .hostOp w = none → step s = .refused (.reservedOpword w)) ∧
  (∀ (s : State) (rest : List Byte), s.phase = .idle → s.held = 0x01 :: rest → s.calValid = true →
    step s = .refused .initWhileCalValid) ∧
  (∀ (s : State) (rest : List Input), (s.phase ≠ .idle ∨ s.held = []) →
    (s.inputs = .read .result :: rest → s.rvalid = false → step s = .refused .resultNotValid) ∧
    (∀ k : Nat, s.inputs = .read (.cal k) :: rest → s.calValid = false ∨ k < 1 ∨ 10 < k →
      step s = .refused (.calreadRefused k)) ∧
    (s.inputs = .lateAnswer :: rest → s.abandoned = 0 → step s = .refused .answerNotOutstanding)) ∧
  (∀ (s : State) (r : Request) (a : Answer) (rest : List Input), s.outstanding = some r →
    s.inputs = .answer a :: rest → a.fits r = false → ∃ x, step s = .refused x) ∧
  (∀ (s : State) (a : Answer) (rest : List Input), s.phase = .idle → s.held = [] →
    s.inputs = .answer a :: rest → step s = .refused .answerNotOutstanding)

/-- With no answer at hand the engine is stuck in its phase: it has no step (R79, R269). In IDLE, with
nothing held, it stays as it is: that this is a step is the model's choice (log entry 7). -/
def Obligations.UnansweredRequestIsStuck : Prop :=
  ∀ s : State, s.inputs = [] →
    (s.phase ≠ .idle → step s = .fault .stuck) ∧
    (s.phase = .idle → s.held = [] → step s = .next s)

/-! ## Host reads -/

/-- R45: BUSY is `phase != IDLE`, CALREAD(k) is the coefficient Ck, and a read has no side effect: the
host gets the value and no register changes. The other ports give STATUS, by the four codes of R99, RVALID
and CAL_VALID, and RESULT while RVALID = 1. -/
def Obligations.HostReadsHaveNoSideEffects : Prop :=
  (Status.none.code = 0b00 ∧ Status.ok.code = 0b01 ∧ Status.transportError.code = 0b10 ∧
    Status.uninitializedError.code = 0b11) ∧
  (∀ s : State, readPort .busy s = .next (.flag (decide (s.phase ≠ .idle))) ∧
    readPort .status s = .next (.status s.status.code) ∧
    readPort .rvalid s = .next (.flag s.rvalid) ∧
    readPort .calValid s = .next (.flag s.calValid)) ∧
  (∀ s : State, s.rvalid = true → readPort .result s = .next (.result s.result.value)) ∧
  (∀ (s : State) (k : Fin 10), s.calValid = true →
    readPort (.cal (k.val + 1)) s = .next (.coefficient (decCoefficient k s.calw[k].value))) ∧
  (∀ (s : State) (r : HostRead) (v : HostValue) (rest : List Input),
    (s.phase ≠ .idle ∨ s.held = []) → s.inputs = .read r :: rest → readPort r s = .next v →
    step s = .next { s with inputs := rest, trace := s.trace ++ [.gave r v] })

/-! ## Reset -/

/-- R43: the reset state of every register of the spec's tuple. A register in the state "no value" has bits
all the same; which bits is the model's choice and no part of this statement (log entry 1). -/
def Obligations.ResetStateIsTheSpecs : Prop :=
  (∀ k : Fin 10, State.reset.calw[k].holds = false) ∧ State.reset.calValid = false ∧
  State.reset.phase = .idle ∧ State.reset.curop.holds = false ∧ State.reset.tr.holds = false ∧
  State.reset.praw.holds = false ∧ State.reset.status = .none ∧ State.reset.rvalid = false ∧
  State.reset.result.holds = false

/-- A reset puts every register in its reset state, delivers no response and counts the abandoned request;
the answer to such a request is not taken (R280, R281). The model's choices: requests not yet accepted stay
held (log entry 8); the count of abandoned requests (log entry 3), and the late answer as an input of its own
that is dropped and counted down (log entry 22); in IDLE with a request held, that request is accepted before
a reset to come is taken, so those states are not spoken of here (log entry 4). -/
def Obligations.ResetAbandonsTheOperation : Prop :=
  ∀ (s : State) (rest : List Input), (s.phase ≠ .idle ∨ s.held = []) →
    (s.inputs = .reset :: rest → step s = .next { State.reset with
      held := s.held, inputs := rest, trace := s.trace,
      abandoned := if s.phase = .idle then s.abandoned else s.abandoned + 1 }) ∧
    (s.inputs = .lateAnswer :: rest → 0 < s.abandoned →
      step s = .next { s with inputs := rest, abandoned := s.abandoned - 1 })

/-! ## Whole operations -/

/-- INIT, from its acceptance to its response: ten reads in ascending order, the words of their answers in
CALW, CAL_VALID = 1, STATUS = OK; nothing else changes (R155, R158). -/
def Obligations.InitLoadsTheCalibration : Prop :=
  ∀ (s : State) (bytes : Fin 10 → Byte × Byte) (hs : List Byte) (rest : List Input),
    s.phase = .idle → s.calValid = false → s.held = 0x01 :: hs →
    s.inputs = calibrationAnswers bytes 10 ++ rest →
    let done := s.trace ++ (calibrationRequests 10).map .issued
    Host.Core.run core 11 s = .next { s with
      held := hs, inputs := rest, curop := .written 0x01, calw := calibrationFile bytes,
      calValid := true, status := .ok, rvalid := false,
      result := State.lostResult { s with trace := done },
      trace := done ++ [.responded .ok none] }

/-- INIT whose read j fails: exactly the first j reads are issued, no calibration word is left, CAL_VALID
stays 0, STATUS = TRANSPORT_ERROR; nothing else changes (R155, R156, R158). -/
def Obligations.FailedInitLeavesNoCalibration : Prop :=
  ∀ (s : State) (bytes : Fin 10 → Byte × Byte) (j : Fin 10) (hs : List Byte) (rest : List Input),
    s.phase = .idle → s.calValid = false → s.held = 0x01 :: hs →
    s.inputs = calibrationAnswers bytes j.val ++ .answer .failure :: rest →
    let done := s.trace ++ (calibrationRequests (j.val + 1)).map .issued
    Host.Core.run core (j.val + 2) s = .next { s with
      held := hs, inputs := rest, curop := .written 0x01,
      calw := State.lostCalibration { s with trace := done },
      status := .transportError, rvalid := false,
      result := State.lostResult { s with trace := done },
      trace := done ++ [.responded .transportError none] } ∧
    ∀ k : Fin 10, (State.lostCalibration { s with trace := done })[k].holds = false

/-- TRAW and TEMP, from acceptance to response: the command, the delay, the read, and the result; nothing
else changes (R180, R183, R184, R185, R186). -/
def Obligations.TemperatureOperationsRun : Prop :=
  ∀ (s : State) (opword : Byte) (b0 b1 : Byte) (hs : List Byte) (rest : List Input),
    s.phase = .idle → s.calValid = true → s.held = opword :: hs →
    opword = 0x02 ∨ opword = 0x03 →
    s.inputs = [.answer .ok, .answer .slept, .answer (.bytes [b0, b1])] ++ rest →
    let temp := tcomp (decU16 s.calw[(0 : Fin 10)].value) (decU16 s.calw[(1 : Fin 10)].value)
      (decS16 (word16 b0 b1))
    let v := if opword = 0x02 then BitVec.ofInt 64 temp else tdeg temp
    Host.Core.run core 4 s = .next { s with
      held := hs, inputs := rest, curop := .written opword, tr := .written (word16 b0 b1),
      status := .ok, rvalid := true, result := .written v,
      trace := s.trace ++ [.issued (.busWrite 0x77 0xF1 [0x03]), .issued (.sleep 5),
        .issued (.busRead 0x77 0xF5 2), .responded .ok (some v)] }

/-- PRES in each mode, from acceptance to response: its six requests in order, TR and PRAW from the two
reads, and PCOMP as the result; nothing else changes (R217 to R221). -/
def Obligations.PressureOperationsRun : Prop :=
  ∀ (s : State) (m : Mode) (t0 t1 p0 p1 : Byte) (hs : List Byte) (rest : List Input),
    s.phase = .idle → s.calValid = true → s.held = presOpword m :: hs →
    s.inputs = [.answer .ok, .answer .slept, .answer (.bytes [t0, t1]), .answer .ok,
      .answer .slept, .answer (.bytes [p0, p1])] ++ rest →
    let word (k : Fin 10) := s.calw[k].value
    let v := pcomp (decU16 (word 2)) (decU16 (word 3)) (decS16 (word 4)) (decS16 (word 5))
      (decS16 (word 6)) (decS16 (word 7)) (decS16 (word 8)) (decS16 (word 9))
      (decS16 (word16 t0 t1)) (decU16 (word16 p0 p1))
    Host.Core.run core 7 s = .next { s with
      held := hs, inputs := rest, curop := .written (presOpword m), tr := .written (word16 t0 t1),
      praw := .written (word16 p0 p1), status := .ok, rvalid := true, result := .written v,
      trace := s.trace ++ [.issued (.busWrite 0x77 0xF1 [0x03]), .issued (.sleep 5),
        .issued (.busRead 0x77 0xF5 2), .issued (.busWrite 0x77 0xF1 [modeByte m]),
        .issued (.sleep (modeDelay m)), .issued (.busRead 0x77 0xF5 2),
        .responded .ok (some v)] }

/-- The result of PRES does not depend on the mode (R222): two engines in P_RD that differ only in the
mode of CUROP take the same answer with the same result, and differ afterwards in CUROP alone. -/
def Obligations.ModeDoesNotChangeTheResult : Prop :=
  ∀ (s t : State) (m n : Mode) (a : Answer) (rest : List Input), s.phase = .pRd →
    s.curop.value = presOpword m → s.inputs = .answer a :: rest → step s = .next t →
    step { s with curop := .written (presOpword n) } =
      .next { t with curop := .written (presOpword n) }

/-- The result of PRES does not depend on C1 and C2 (R154, R222): in every phase of the pressure
conversion the step an answer makes is the same whatever stands in the two words. -/
def Obligations.PressureIgnoresC1AndC2 : Prop :=
  ∀ (s t : State) (w1 w2 : Register 16) (a : Answer) (rest : List Input),
    s.phase.isPressure = true → s.inputs = .answer a :: rest → step s = .next t →
    step { s with calw := (s.calw.set 0 w1).set 1 w2 } =
      .next { t with calw := (t.calw.set 0 w1).set 1 w2 }

/-! ## Rules of the whole machine -/

/-- The invariant of the registers holds at reset. -/
def Obligations.ResetMeetsTheInvariant : Prop := Inv State.reset

/-- Every step keeps the invariant of the registers. -/
def Obligations.StepKeepsTheInvariant : Prop :=
  ∀ s t : State, Inv s → step s = .next t → Inv t

/-- In a state of the invariant no register without a value is ever read (R44): what a step answers does not
depend on the bits that such a register has (log entries 1 and 24), and every phase is one of its operation,
so that the only fault of a step is that of an engine that waits for an answer with no input left. -/
def Obligations.OnlyAWaitingEngineFaults : Prop :=
  (∀ (s : State) (f : Fault), Inv s → step s = .fault f →
    f = .stuck ∧ s.phase ≠ .idle ∧ s.inputs = []) ∧
  (∀ s : State, Inv s → forgetOutcome (step s) = forgetOutcome (step s.forget))

/-- While CAL_VALID = 1 no step but a reset writes the calibration words or clears CAL_VALID; while
CAL_VALID = 0 only INIT writes them (R33, R34). An acceptance in IDLE takes no reset that is to come (log
entry 4). -/
def Obligations.CalibrationIsImmutable : Prop :=
  ∀ s t : State, Inv s → step s = .next t →
    (s.inputs.head? ≠ some .reset ∨ (s.phase = .idle ∧ s.held ≠ [])) →
    (s.calValid = true → t.calw = s.calw ∧ t.calValid = true) ∧
    (s.calValid = false → t.calw ≠ s.calw → ∃ k, s.phase = .initRd k)

/-- CAL_VALID is set only by a successful INIT, at the answer to its tenth read, and then every word holds
a value; it is cleared only by reset (R33). -/
def Obligations.CalValidIsSetOnlyByInit : Prop :=
  ∀ s t : State, Inv s → step s = .next t →
    (s.calValid = false → t.calValid = true →
      s.phase = .initRd 9 ∧ s.curop = .written 0x01 ∧ t.phase = .idle ∧ t.status = .ok ∧
      ∀ k : Fin 10, t.calw[k].holds = true) ∧
    (s.calValid = true → t.calValid = false → s.inputs.head? = some .reset)

/-- The phase only stays, returns to IDLE, or goes to the next row of its operation (R36); it goes to a
first phase only from IDLE, and to the pressure command only in PRES. -/
def Obligations.PhaseFollowsItsOperation : Prop :=
  ∀ s t : State, step s = .next t →
    (t.phase = s.phase ∨ t.phase = .idle ∨ s.phase.follows t.phase = true) ∧
    (s.phase = .tRd → t.phase = .pCmd → ∃ m, s.curop.value = presOpword m)

/-- STATUS, RVALID and RESULT are written by a response, STATUS by nothing else: a step records at most one
response, and then they hold it and the phase is IDLE; without one STATUS stays, unless the engine is
reset, and a result stays or, at an acceptance, goes (R17, R36, R40, R41). That a result goes at an
acceptance is the model's reading (log entry 6), and the bits it leaves are free (log entry 24). -/
def Obligations.ResponsesWriteStatusAndResult : Prop :=
  ∀ s t : State, step s = .next t → s.inputs.head? ≠ some .reset ∨ (s.phase = .idle ∧ s.held ≠ []) →
    ∃ new : List Event, t.trace = s.trace ++ new ∧
      ((responsesOf new = [] ∧ t.status = s.status ∧
          ((t.rvalid = s.rvalid ∧ t.result = s.result) ∨
            (s.phase = .idle ∧ t.rvalid = false ∧ t.result = s.lostResult))) ∨
        ∃ st v, responsesOf new = [(st, v)] ∧ requestsOf new = [] ∧ t.status = st ∧
          t.result = s.resultAfter v ∧ t.rvalid = v.isSome ∧ t.phase = .idle)

/-- Every request a step issues is one of R64's, with the five command bytes of R94 and the delays of R291:
no calibration location or data register is written and the command register is not read (R65). -/
def Obligations.OnlyTheListedRequestsAreIssued : Prop :=
  (∀ s t : State, step s = .next t →
    ∃ new : List Event, t.trace = s.trace ++ new ∧ ∀ r ∈ requestsOf new, r ∈ allowedRequests) ∧
  (∀ r ∈ allowedRequests, ∀ (device : DevAddr) (location : Byte) (n : Nat) (bytes : List Byte),
    (r = .busWrite device location bytes → device = 0x77 ∧ location = 0xF1 ∧ bytes.length = 1) ∧
    (r = .busRead device location n → device = 0x77 ∧ location ≠ 0xF1 ∧ n = 2))

/-- A request is issued exactly when a phase other than IDLE is entered, one a step, and it is the one whose
answer that phase waits for; a step that stays in its phase or ends in IDLE issues none (R35, R61, R72). -/
def Obligations.OneRequestIsOutstanding : Prop :=
  ∀ s t : State, step s = .next t →
    (t.phase ≠ s.phase → t.phase ≠ .idle →
      ∃ r, t.outstanding = some r ∧ t.trace = s.trace ++ [.issued r]) ∧
    (t.phase = s.phase ∨ t.phase = .idle →
      ∃ new, t.trace = s.trace ++ new ∧ requestsOf new = [])

/-- The data register is read only after its settle delay has completed: a step that enters T_RD or P_RD
comes from the wait before it and takes the sleep's completion (R73, R286). -/
def Obligations.DataReadWaitsForTheDelay : Prop :=
  ∀ s t : State, step s = .next t → t.phase ≠ s.phase →
    (t.phase = .tRd → s.phase = .tWait ∧ s.inputs.head? = some (.answer .slept)) ∧
    (t.phase = .pRd → s.phase = .pWait ∧ s.inputs.head? = some (.answer .slept))

/-- CUROP is written only at an acceptance in IDLE, TR only at the temperature read, PRAW only at the
pressure read (R37, R38, R39), but for a reset. The oldest held opword is the one accepted (log entry 2), and
an acceptance takes no reset that is to come (log entry 4). -/
def Obligations.LatchesAreWrittenInTheirPhases : Prop :=
  ∀ s t : State, step s = .next t →
    (s.inputs.head? ≠ some .reset ∨ (s.phase = .idle ∧ s.held ≠ [])) →
    (t.curop ≠ s.curop → s.phase = .idle ∧ ∃ w rest, s.held = w :: rest ∧ t.curop = .written w) ∧
    (t.tr ≠ s.tr → s.phase = .tRd) ∧ (t.praw ≠ s.praw → s.phase = .pRd)

/-- No held request is lost (R267): a step keeps them, adds the arriving one at the end, or accepts the
oldest, in IDLE. The model's choices: the order, an arriving request behind the others and the oldest taken
first (log entry 2), and that a reset keeps them (log entry 8). -/
def Obligations.HeldRequestsAreNotLost : Prop :=
  ∀ s t : State, step s = .next t →
    t.held = s.held ∨
    (∃ w rest, s.inputs = .request w :: rest ∧ t.held = s.held ++ [w]) ∨
    (s.phase = .idle ∧ ∃ w, s.held = w :: t.held ∧ t.curop = .written w)

/-- An answer that fits the outstanding request always brings the operation nearer its end: in a state of
the invariant the step answers a next state with fewer answers left to come, and IDLE, with a response,
when there are none (R36, R257). -/
def Obligations.FittingAnswersEndTheOperation : Prop :=
  ∀ (s : State) (r : Request) (a : Answer) (rest : List Input), Inv s → s.outstanding = some r →
    s.inputs = .answer a :: rest → a.fits r = true →
    ∃ t, step s = .next t ∧ t.inputs = rest ∧ t.phase.answersLeft < s.phase.answersLeft ∧
      (t.phase = .idle → ∃ st v, t.trace = s.trace ++ [.responded st v] ∧ st ≠ .none)
end

