-- ==== Sys2Proof/Laws/Float.lean ====
section
/-! SUPPORT. What the binary64 operations answer, said once: `RHE`, the exponent of a rational, the value
of a rounded magnitude, and what `fl` gives. -/

namespace Sys2Proof.Machine

open Sys2Proof

/-! ## Powers of two -/

theorem pow2_eq_zpow (e : Int) : pow2 e = (2 : Rat) ^ e := by
  unfold pow2
  split
  · next h =>
    obtain ⟨n, rfl⟩ := Int.eq_ofNat_of_zero_le h
    simp
  · next h =>
    obtain ⟨n, rfl⟩ : ∃ n : Nat, e = -n := ⟨(-e).toNat, by omega⟩
    simp [Rat.mkRat_eq_div]

theorem pow2_pos (e : Int) : 0 < pow2 e := by
  rw [pow2_eq_zpow]; positivity

theorem pow2_add (a b : Int) : pow2 (a + b) = pow2 a * pow2 b := by
  simp only [pow2_eq_zpow]; exact zpow_add₀ (by norm_num) a b

theorem pow2_le {a b : Int} (h : a ≤ b) : pow2 a ≤ pow2 b := by
  simp only [pow2_eq_zpow]; exact zpow_le_zpow_right₀ (by norm_num) h

theorem pow2_lt {a b : Int} (h : a < b) : pow2 a < pow2 b := by
  simp only [pow2_eq_zpow]; exact zpow_lt_zpow_right₀ (by norm_num) h

theorem pow2_lt_iff {a b : Int} : pow2 a < pow2 b ↔ a < b := by
  simp only [pow2_eq_zpow]; exact zpow_lt_zpow_iff_right₀ (by norm_num)

theorem pow2_natCast (n : Nat) : pow2 (n : Int) = ((2 ^ n : Nat) : Rat) := by
  simp [pow2_eq_zpow]

/-! ## `RHE` (R134) -/

/-- `RHE(q)` lies within one half of q. -/
theorem abs_rhe_sub_le (q : Rat) : |(rhe q : Rat) - q| ≤ 1 / 2 := by
  have h1 : ((q.floor : Int) : Rat) ≤ q := Rat.floor_le q
  have h2 : q < ((q.floor : Int) : Rat) + 1 := by exact_mod_cast Rat.lt_floor_add_one q
  have half : mkRat 1 2 = (1 / 2 : Rat) := by simp [Rat.mkRat_eq_div]
  unfold rhe
  simp only [half]
  split_ifs <;> rw [abs_le] <;> push_cast <;> constructor <;> linarith

/-- Halfway between two integers, `RHE(q)` is the even one. -/
theorem rhe_even_of_half {q : Rat} (h : |(rhe q : Rat) - q| = 1 / 2) : rhe q % 2 = 0 := by
  have h1 : ((q.floor : Int) : Rat) ≤ q := Rat.floor_le q
  have h2 : q < ((q.floor : Int) : Rat) + 1 := by exact_mod_cast Rat.lt_floor_add_one q
  have half : mkRat 1 2 = (1 / 2 : Rat) := by simp [Rat.mkRat_eq_div]
  revert h
  unfold rhe
  simp only [half]
  split_ifs with a b c
  · intro h
    exfalso
    rw [abs_of_nonpos (by linarith)] at h
    linarith
  · intro h
    exfalso
    push_cast at h
    rw [abs_of_nonneg (by linarith)] at h
    linarith
  · intro _; exact c
  · intro _; omega

/-- No integer is nearer to q than `RHE(q)`. -/
theorem rhe_nearest (q : Rat) (n : Int) : |(rhe q : Rat) - q| ≤ |(n : Rat) - q| := by
  by_contra hlt
  push Not at hlt
  have hr := abs_rhe_sub_le q
  have hd : |(rhe q : Rat) - n| < 1 := by
    have := abs_sub_abs_le_abs_sub ((rhe q : Rat) - q) ((n : Rat) - q)
    calc |(rhe q : Rat) - n| = |((rhe q : Rat) - q) - ((n : Rat) - q)| := by ring_nf
      _ ≤ |(rhe q : Rat) - q| + |(n : Rat) - q| := abs_sub _ _
      _ < 1 := by linarith
  have : rhe q = n := by
    have h3 : |((rhe q - n : Int) : Rat)| < 1 := by push_cast; exact hd
    rw [← Int.cast_abs] at h3
    have h4 : |rhe q - n| < 1 := by exact_mod_cast h3
    have := abs_lt.mp h4
    omega
  rw [this] at hlt
  exact lt_irrefl _ hlt

/-- `RHE` of an integer is that integer. -/
theorem rhe_intCast (n : Int) : rhe (n : Rat) = n := by
  have h := rhe_nearest (n : Rat) n
  simp only [sub_self, abs_zero] at h
  have h0 : (rhe (n : Rat) : Rat) - n = 0 := abs_nonpos_iff.mp h
  exact_mod_cast sub_eq_zero.mp h0

/-- `RHE(q)` is at most any integer that is at least q. -/
theorem rhe_le_of_le {q : Rat} {n : Int} (h : q ≤ n) : rhe q ≤ n := by
  by_contra hlt
  push Not at hlt
  have h1 : (n : Rat) + 1 ≤ rhe q := by exact_mod_cast hlt
  have h2 := rhe_nearest q n
  rw [abs_of_nonneg (by linarith), abs_of_nonneg (by linarith)] at h2
  linarith

/-- `RHE(q)` is at least any integer that is at most q. -/
theorem le_rhe_of_le {q : Rat} {n : Int} (h : (n : Rat) ≤ q) : n ≤ rhe q := by
  by_contra hlt
  push Not at hlt
  have h1 : (rhe q : Rat) + 1 ≤ n := by exact_mod_cast hlt
  have h2 := rhe_nearest q n
  rw [abs_of_nonpos (by linarith), abs_of_nonpos (by linarith)] at h2
  linarith

/-! ## The exponent of a rational -/

theorem floorLog2_spec {q : Rat} (h : 0 < q) :
    pow2 (floorLog2 q) ≤ q ∧ q < pow2 (floorLog2 q + 1) := by
  have hn : 0 < q.num := Rat.num_pos.mpr h
  have hN : q.num.natAbs ≠ 0 := by omega
  have hD : q.den ≠ 0 := q.den_nz
  have n1 : (2 : Rat) ^ (Nat.log2 q.num.natAbs) ≤ q.num.natAbs := by
    exact_mod_cast Nat.log2_self_le hN
  have n2 : (q.num.natAbs : Rat) < 2 ^ (Nat.log2 q.num.natAbs + 1) := by
    exact_mod_cast Nat.lt_log2_self
  have d1 : (2 : Rat) ^ (Nat.log2 q.den) ≤ q.den := by exact_mod_cast Nat.log2_self_le hD
  have d2 : (q.den : Rat) < 2 ^ (Nat.log2 q.den + 1) := by exact_mod_cast Nat.lt_log2_self
  have hq : q = (q.num.natAbs : Rat) / q.den := by
    have : ((q.num.natAbs : Int) : Rat) = (q.num : Rat) := by
      congr 1; omega
    rw [← Int.cast_natCast q.num.natAbs, this, Rat.num_div_den]
  have hdpos : (0 : Rat) < q.den := by exact_mod_cast q.den_pos
  set a := Nat.log2 q.num.natAbs
  set b := Nat.log2 q.den
  have lo : pow2 ((a : Int) - b - 1) < q := by
    rw [hq, lt_div_iff₀ hdpos, pow2_eq_zpow]
    calc (2 : Rat) ^ ((a : Int) - b - 1) * q.den < 2 ^ ((a : Int) - b - 1) * 2 ^ (b + 1) := by
          apply mul_lt_mul_of_pos_left d2; positivity
      _ = 2 ^ a := by
          rw [← zpow_natCast (2 : Rat) (b + 1), ← zpow_add₀ (by norm_num), ← zpow_natCast]
          congr 1; push_cast; ring
      _ ≤ q.num.natAbs := n1
  have hi : q < pow2 ((a : Int) - b + 1) := by
    rw [hq, div_lt_iff₀ hdpos, pow2_eq_zpow]
    calc (q.num.natAbs : Rat) < 2 ^ (a + 1) := n2
      _ = 2 ^ ((a : Int) - b + 1) * 2 ^ b := by
          rw [← zpow_natCast (2 : Rat) b, ← zpow_add₀ (by norm_num), ← zpow_natCast]
          congr 1; push_cast; ring
      _ ≤ 2 ^ ((a : Int) - b + 1) * q.den := by
          apply mul_le_mul_of_nonneg_left d1; positivity
  unfold floorLog2
  simp only
  split_ifs with c
  · exact ⟨c, hi⟩
  · refine ⟨lo.le, ?_⟩
    rw [sub_add_cancel]
    exact not_le.mp c

/-- The exponent of q is below k when q is below 2^k. -/
theorem floorLog2_lt {q : Rat} (h : 0 < q) {k : Int} (hk : q < pow2 k) : floorLog2 q < k :=
  pow2_lt_iff.mp (lt_of_le_of_lt (floorLog2_spec h).1 hk)

/-- The exponent of q is at least k when q is at least 2^k. -/
theorem le_floorLog2 {q : Rat} (h : 0 < q) {k : Int} (hk : pow2 k ≤ q) : k ≤ floorLog2 q := by
  have := pow2_lt_iff.mp (lt_of_le_of_lt hk (floorLog2_spec h).2)
  omega

/-! ## The value of a pattern without its sign -/

/-- The value of a pattern whose sign bit is 0. -/
def magnitudeValue (m : Nat) : Rat :=
  if m / 2 ^ 52 = 0 then (m % 2 ^ 52 : Nat) * pow2 (-1074)
  else (2 ^ 52 + m % 2 ^ 52 : Nat) * pow2 ((m / 2 ^ 52 : Nat) - 1075)

/-- The significand r in the place 2^(k - 1074) is the pattern `k * 2^52 + r`. -/
theorem magnitudeValue_place {k r : Nat} (hr : r ≤ 2 ^ 53) (h : k = 0 ∨ 2 ^ 52 ≤ r) :
    magnitudeValue (k * 2 ^ 52 + r) = r * pow2 ((k : Int) - 1074) := by
  unfold magnitudeValue
  rcases lt_or_ge r (2 ^ 52) with h1 | h1
  · obtain rfl : k = 0 := by omega
    have e1 : (0 * 2 ^ 52 + r) / 2 ^ 52 = 0 := by omega
    have e2 : (0 * 2 ^ 52 + r) % 2 ^ 52 = r := by omega
    simp only [e1, e2, if_true]
    norm_num
  · rcases lt_or_ge r (2 ^ 53) with h2 | h2
    · have e1 : (k * 2 ^ 52 + r) / 2 ^ 52 = k + 1 := by omega
      have e2 : 2 ^ 52 + (k * 2 ^ 52 + r) % 2 ^ 52 = r := by omega
      rw [e1, e2, if_neg (by omega)]
      congr 2; push_cast; ring
    · obtain rfl : r = 2 ^ 53 := by omega
      have e1 : (k * 2 ^ 52 + 2 ^ 53) / 2 ^ 52 = k + 2 := by omega
      have e2 : 2 ^ 52 + (k * 2 ^ 52 + 2 ^ 53) % 2 ^ 52 = 2 ^ 52 := by omega
      rw [e1, e2, if_neg (by omega)]
      have : ((k + 2 : Nat) : Int) - 1075 = ((k : Int) - 1074) + 1 := by push_cast; ring
      rw [this, pow2_add]
      have h1 : pow2 1 = 2 := by norm_num [pow2]
      rw [h1]; push_cast; ring

/-- The rounded significand of a positive rational: at most 2^53, and at least 2^52 above the
subnormals. -/
theorem significand_bounds {q : Rat} (h : 0 < q) :
    0 ≤ rhe (q / pow2 (lastPlace q)) ∧ rhe (q / pow2 (lastPlace q)) ≤ 2 ^ 53 ∧
      (lastPlace q = -1074 ∨ 2 ^ 52 ≤ rhe (q / pow2 (lastPlace q))) := by
  have hp := pow2_pos (lastPlace q)
  have hs := floorLog2_spec h
  refine ⟨?_, ?_, ?_⟩
  · apply le_rhe_of_le
    simpa using (div_pos h hp).le
  · apply rhe_le_of_le
    rw [div_le_iff₀ hp]
    have : pow2 (floorLog2 q + 1) ≤ pow2 (53 + lastPlace q) := pow2_le (by unfold lastPlace; omega)
    have h53 : pow2 53 = 2 ^ 53 := by have := pow2_natCast 53; push_cast at this; exact this
    rw [pow2_add 53, h53] at this
    push_cast
    linarith [hs.2]
  · by_cases hc : lastPlace q = -1074
    · exact .inl hc
    · right
      apply le_rhe_of_le
      rw [le_div_iff₀ hp]
      have e : floorLog2 q = 52 + lastPlace q := by unfold lastPlace at hc ⊢; omega
      have h52 : pow2 52 = 2 ^ 52 := by have := pow2_natCast 52; push_cast at this; exact this
      have := hs.1
      rw [e, pow2_add, h52] at this
      push_cast
      exact this

/-- The pattern `flMagnitude` gives a positive rational has the value of the rational rounded to the
last place. -/
theorem magnitudeValue_flMagnitude {q : Rat} (h : 0 < q) :
    magnitudeValue (flMagnitude q) = rhe (q / pow2 (lastPlace q)) * pow2 (lastPlace q) := by
  obtain ⟨b0, b1, b2⟩ := significand_bounds h
  have hl : -1074 ≤ lastPlace q := by unfold lastPlace; omega
  unfold flMagnitude
  rw [if_neg h.ne']
  rw [magnitudeValue_place (by omega) (by omega)]
  have e1 : ((lastPlace q + 1074).toNat : Int) - 1074 = lastPlace q := by omega
  have e2 : (((rhe (q / pow2 (lastPlace q))).toNat : Nat) : Rat)
      = (rhe (q / pow2 (lastPlace q)) : Rat) := by
    have : (((rhe (q / pow2 (lastPlace q))).toNat : Int) : Rat)
        = (rhe (q / pow2 (lastPlace q)) : Rat) := by rw [Int.toNat_of_nonneg b0]
    exact_mod_cast this
  rw [e1, e2]

/-! ## Patterns with a sign -/

/-- The fields of the pattern of a sign and a finite magnitude. -/
theorem fields_ofNat (neg : Bool) {m : Nat} (hm : m < 2047 * 2 ^ 52) :
    F64.sign (BitVec.ofNat 64 ((if neg then 2 ^ 63 else 0) + m)) = neg ∧
      F64.expField (BitVec.ofNat 64 ((if neg then 2 ^ 63 else 0) + m)) = m / 2 ^ 52 ∧
      F64.fraction (BitVec.ofNat 64 ((if neg then 2 ^ 63 else 0) + m)) = m % 2 ^ 52 := by
  have hlt : (if neg then 2 ^ 63 else 0) + m < 2 ^ 64 := by split <;> omega
  refine ⟨?_, ?_, ?_⟩
  · unfold F64.sign
    rw [BitVec.getLsbD_eq_getElem (by omega), BitVec.getElem_eq_testBit_toNat, BitVec.toNat_ofNat,
      Nat.mod_eq_of_lt hlt]
    rw [Nat.testBit_eq_decide_div_mod_eq]
    cases neg <;> simp <;> omega
  · unfold F64.expField
    rw [BitVec.toNat_ofNat, Nat.mod_eq_of_lt hlt]
    cases neg <;> simp <;> omega
  · unfold F64.fraction
    rw [BitVec.toNat_ofNat, Nat.mod_eq_of_lt hlt]
    cases neg
    · simp
    · simp; omega

/-- The value of the pattern of a sign and a finite magnitude. -/
theorem exact_ofNat (neg : Bool) {m : Nat} (hm : m < 2047 * 2 ^ 52) :
    F64.exact (BitVec.ofNat 64 ((if neg then 2 ^ 63 else 0) + m))
      = (if neg then -1 else 1) * magnitudeValue m := by
  obtain ⟨h1, h2, h3⟩ := fields_ofNat neg hm
  unfold F64.exact F64.significand F64.scale magnitudeValue
  rw [h1, h2, h3, mul_assoc]
  congr 1
  split_ifs with h0
  · rw [h0]; norm_num
  · have : max (m / 2 ^ 52) 1 = m / 2 ^ 52 := by omega
    rw [this]

/-- What `fl` answers: a finite pattern with the sign of q (or, of a zero, the sign it is given), whose
value is q rounded to the last place. -/
theorem fl_spec {zeroSign : Bool} {q : Rat} {x : F64} (h : fl zeroSign q = some x) :
    F64.isFinite x = true ∧ F64.sign x = (if q = 0 then zeroSign else decide (q < 0)) ∧
      F64.exact x = if q = 0 then 0 else
        (if q < 0 then -1 else 1) *
          (rhe (|q| / pow2 (lastPlace |q|)) * pow2 (lastPlace |q|)) := by
  unfold fl at h
  simp only [Option.ite_none_right_eq_some, Option.some.injEq] at h
  obtain ⟨hm, rfl⟩ := h
  obtain ⟨f1, f2, _⟩ := fields_ofNat (if q = 0 then zeroSign else decide (q < 0)) hm
  refine ⟨?_, f1, ?_⟩
  · unfold F64.isFinite
    rw [f2, bne_iff_ne]
    omega
  · rw [exact_ofNat _ hm]
    by_cases hq : q = 0
    · simp [hq, flMagnitude, magnitudeValue]
    · rw [magnitudeValue_flMagnitude (abs_pos.mpr hq)]
      simp [hq]

/-- A rational of magnitude at most 2^k is rounded to a finite value of magnitude at most 2^k. -/
theorem fl_bounded (zeroSign : Bool) {q : Rat} {k : Int} (hk : -1074 ≤ k) (hk' : k ≤ 1023)
    (h : |q| ≤ pow2 k) : ∃ x, fl zeroSign q = some x ∧ |F64.exact x| ≤ pow2 k := by
  by_cases hq : q = 0
  · refine ⟨BitVec.ofNat 64 ((if zeroSign then 2 ^ 63 else 0) + 0), ?_, ?_⟩
    · simp [fl, hq, flMagnitude]
    · rw [exact_ofNat _ (by norm_num)]
      simp [magnitudeValue, (pow2_pos k).le]
  have ha : 0 < |q| := abs_pos.mpr hq
  set a := |q| with hadef
  have hl : lastPlace a ≤ k := by
    have : floorLog2 a ≤ k := by
      have := floorLog2_lt ha (lt_of_le_of_lt h (pow2_lt (lt_add_one k)))
      omega
    unfold lastPlace; omega
  have hl' : lastPlace a = -1074 ∨ lastPlace a ≤ k - 52 := by
    have : floorLog2 a ≤ k := by
      have := floorLog2_lt ha (lt_of_le_of_lt h (pow2_lt (lt_add_one k)))
      omega
    unfold lastPlace; omega
  obtain ⟨b0, b1, b2⟩ := significand_bounds ha
  have hr : rhe (a / pow2 (lastPlace a)) ≤ 2 ^ (k - lastPlace a).toNat := by
    apply rhe_le_of_le
    rw [div_le_iff₀ (pow2_pos _)]
    have : pow2 k = ((2 ^ (k - lastPlace a).toNat : Int) : Rat) * pow2 (lastPlace a) := by
      have e : k = ((k - lastPlace a).toNat : Int) + lastPlace a := by omega
      conv_lhs => rw [e, pow2_add, pow2_natCast]
      push_cast; ring
    rw [← this]; exact h
  have hl0 : -1074 ≤ lastPlace a := by unfold lastPlace; omega
  have hm : flMagnitude a < 2047 * 2 ^ 52 := by
    unfold flMagnitude
    rw [if_neg ha.ne']
    rcases hl' with h1 | h1
    · rw [h1] at b1 ⊢
      have : (rhe (a / pow2 (-1074))).toNat ≤ 2 ^ 53 := by omega
      norm_num at this ⊢
      omega
    · by_cases h2 : lastPlace a ≤ 970
      · have : (rhe (a / pow2 (lastPlace a))).toNat ≤ 2 ^ 53 := by omega
        omega
      · have e : lastPlace a = 971 := by omega
        have e' : k = 1023 := by omega
        have e2 : (k - lastPlace a).toNat = 52 := by omega
        rw [e2] at hr
        rw [e]
        norm_num at hr ⊢
        rw [e] at hr
        omega
  refine ⟨BitVec.ofNat 64 ((if q < 0 then 2 ^ 63 else 0) + flMagnitude a), ?_, ?_⟩
  · unfold fl
    simp only [hq, if_false, ← hadef, hm, if_true, decide_eq_true_eq]
  · have := exact_ofNat (decide (q < 0)) hm
    simp only [decide_eq_true_eq] at this
    rw [this, magnitudeValue_flMagnitude ha, abs_mul]
    have hs : |(if q < 0 then (-1 : Rat) else 1)| = 1 := by split <;> simp
    rw [hs, one_mul, abs_of_nonneg (by
      apply mul_nonneg
      · exact_mod_cast b0
      · exact (pow2_pos _).le)]
    have e : pow2 k = ((2 ^ (k - lastPlace a).toNat : Int) : Rat) * pow2 (lastPlace a) := by
      have e : k = ((k - lastPlace a).toNat : Int) + lastPlace a := by omega
      conv_lhs => rw [e, pow2_add, pow2_natCast]
      push_cast; ring
    rw [e]
    apply mul_le_mul_of_nonneg_right _ (pow2_pos _).le
    exact_mod_cast hr

/-- A rational that is a multiple of its last place is rounded to itself. -/
theorem fl_exact {zeroSign : Bool} {q : Rat} {x : F64} (h : fl zeroSign q = some x) (n : Int)
    (hn : |q| = n * pow2 (lastPlace |q|)) : F64.exact x = q := by
  rw [(fl_spec h).2.2]
  by_cases hq : q = 0
  · simp [hq]
  · have hp := pow2_pos (lastPlace |q|)
    have : |q| / pow2 (lastPlace |q|) = n := by rw [div_eq_iff hp.ne']; exact hn
    rw [if_neg hq, this, rhe_intCast, ← hn]
    rcases lt_or_gt_of_ne hq with h' | h'
    · simp [h', abs_of_neg h']
    · simp [not_lt.mpr h'.le, abs_of_pos h']

end Sys2Proof.Machine
end

