-- ==== Sys2Proof/Laws/State.lean ====
section
/-! SUPPORT. What each update of the state does to each field, so that no proof unfolds an update. -/

namespace Sys2Proof.Machine

open Sys2Proof

variable (s : State)

/-! ## Registers that can hold no value (R43, R44) -/

@[simp] theorem written_value {w : Nat} (v : BitVec w) : (Register.written v).value = v := rfl
@[simp] theorem written_holds {w : Nat} (v : BitVec w) : (Register.written v).holds = true := rfl
@[simp] theorem written_inj {w : Nat} {u v : BitVec w} :
    Register.written u = Register.written v ↔ u = v :=
  ⟨fun h => congrArg Register.value h, congrArg Register.written⟩
@[simp] theorem atReset_value {w : Nat} : (Register.atReset : Register w).value = 0 := rfl
@[simp] theorem atReset_holds {w : Nat} : (Register.atReset : Register w).holds = false := rfl
@[simp] theorem lostResult_holds : s.lostResult.holds = false := rfl
@[simp] theorem lostCalibration_holds (k : Nat) (h : k < 10) :
    s.lostCalibration[k].holds = false := by simp [State.lostCalibration]
/-- The bits an operation leaves behind depend on the trace alone (log entry 24). -/
theorem lostResult_congr {s t : State} (h : t.trace = s.trace) : t.lostResult = s.lostResult := by
  simp [State.lostResult, h]
theorem lostCalibration_congr {s t : State} (h : t.trace = s.trace) :
    t.lostCalibration = s.lostCalibration := by simp [State.lostCalibration, h]
@[simp] theorem resultAfter_none : s.resultAfter none = s.lostResult := rfl
@[simp] theorem resultAfter_some (v : BitVec 64) : s.resultAfter (some v) = .written v := rfl
@[simp] theorem resultAfter_holds (v : Option (BitVec 64)) :
    (s.resultAfter v).holds = v.isSome := by cases v <;> rfl

/-- A register that holds a value is the one written with its bits. -/
theorem eq_written {w : Nat} {r : Register w} (h : r.holds = true) : r = .written r.value := by
  cases r; simp_all [Register.written]

@[simp] theorem forget_written {w : Nat} (v : BitVec w) : (Register.written v).forget = .written v :=
  rfl
@[simp] theorem forget_forget {w : Nat} (r : Register w) : r.forget.forget = r.forget := by
  rcases r with ⟨v, b⟩; cases b <;> rfl
theorem forget_of_holds {w : Nat} {r : Register w} (h : r.holds = true) : r.forget = r := by
  simp [Register.forget, h]
theorem forget_of_not_holds {w : Nat} {r : Register w} (h : r.holds = false) :
    r.forget = .atReset := by simp [Register.forget, h]

/-! ## Recording an event changes the trace alone. -/

@[simp] theorem emit_calw (e : Event) : (emit e s).calw = s.calw := rfl
@[simp] theorem emit_calValid (e : Event) : (emit e s).calValid = s.calValid := rfl
@[simp] theorem emit_phase (e : Event) : (emit e s).phase = s.phase := rfl
@[simp] theorem emit_curop (e : Event) : (emit e s).curop = s.curop := rfl
@[simp] theorem emit_tr (e : Event) : (emit e s).tr = s.tr := rfl
@[simp] theorem emit_praw (e : Event) : (emit e s).praw = s.praw := rfl
@[simp] theorem emit_status (e : Event) : (emit e s).status = s.status := rfl
@[simp] theorem emit_rvalid (e : Event) : (emit e s).rvalid = s.rvalid := rfl
@[simp] theorem emit_result (e : Event) : (emit e s).result = s.result := rfl
@[simp] theorem emit_held (e : Event) : (emit e s).held = s.held := rfl
@[simp] theorem emit_inputs (e : Event) : (emit e s).inputs = s.inputs := rfl
@[simp] theorem emit_abandoned (e : Event) : (emit e s).abandoned = s.abandoned := rfl
@[simp] theorem emit_trace (e : Event) : (emit e s).trace = s.trace ++ [e] := rfl

/-! ## Entering a phase changes the phase and issues its request. -/

@[simp] theorem enter_calw (p : Phase) : (enter p s).calw = s.calw := rfl
@[simp] theorem enter_calValid (p : Phase) : (enter p s).calValid = s.calValid := rfl
@[simp] theorem enter_phase (p : Phase) : (enter p s).phase = p := rfl
@[simp] theorem enter_curop (p : Phase) : (enter p s).curop = s.curop := rfl
@[simp] theorem enter_tr (p : Phase) : (enter p s).tr = s.tr := rfl
@[simp] theorem enter_praw (p : Phase) : (enter p s).praw = s.praw := rfl
@[simp] theorem enter_status (p : Phase) : (enter p s).status = s.status := rfl
@[simp] theorem enter_rvalid (p : Phase) : (enter p s).rvalid = s.rvalid := rfl
@[simp] theorem enter_result (p : Phase) : (enter p s).result = s.result := rfl
@[simp] theorem enter_held (p : Phase) : (enter p s).held = s.held := rfl
@[simp] theorem enter_inputs (p : Phase) : (enter p s).inputs = s.inputs := rfl
@[simp] theorem enter_abandoned (p : Phase) : (enter p s).abandoned = s.abandoned := rfl
@[simp] theorem enter_trace (p : Phase) :
    (enter p s).trace = s.trace ++ (State.outstanding { s with phase := p }).toList.map Event.issued := rfl

/-! ## Acceptance writes CUROP, RVALID and RESULT (R36). -/

@[simp] theorem accept_calw (w : Byte) : (accept w s).calw = s.calw := rfl
@[simp] theorem accept_calValid (w : Byte) : (accept w s).calValid = s.calValid := rfl
@[simp] theorem accept_phase (w : Byte) : (accept w s).phase = s.phase := rfl
@[simp] theorem accept_curop (w : Byte) : (accept w s).curop = .written w := rfl
@[simp] theorem accept_tr (w : Byte) : (accept w s).tr = s.tr := rfl
@[simp] theorem accept_praw (w : Byte) : (accept w s).praw = s.praw := rfl
@[simp] theorem accept_status (w : Byte) : (accept w s).status = s.status := rfl
@[simp] theorem accept_rvalid (w : Byte) : (accept w s).rvalid = false := rfl
@[simp] theorem accept_result (w : Byte) : (accept w s).result = s.lostResult := rfl
@[simp] theorem accept_held (w : Byte) : (accept w s).held = s.held := rfl
@[simp] theorem accept_inputs (w : Byte) : (accept w s).inputs = s.inputs := rfl
@[simp] theorem accept_abandoned (w : Byte) : (accept w s).abandoned = s.abandoned := rfl
@[simp] theorem accept_trace (w : Byte) : (accept w s).trace = s.trace := rfl

/-! ## Holding a request changes the held requests alone (R267). -/

@[simp] theorem hold_calw (w : Byte) : (hold w s).calw = s.calw := rfl
@[simp] theorem hold_calValid (w : Byte) : (hold w s).calValid = s.calValid := rfl
@[simp] theorem hold_phase (w : Byte) : (hold w s).phase = s.phase := rfl
@[simp] theorem hold_curop (w : Byte) : (hold w s).curop = s.curop := rfl
@[simp] theorem hold_tr (w : Byte) : (hold w s).tr = s.tr := rfl
@[simp] theorem hold_praw (w : Byte) : (hold w s).praw = s.praw := rfl
@[simp] theorem hold_status (w : Byte) : (hold w s).status = s.status := rfl
@[simp] theorem hold_rvalid (w : Byte) : (hold w s).rvalid = s.rvalid := rfl
@[simp] theorem hold_result (w : Byte) : (hold w s).result = s.result := rfl
@[simp] theorem hold_held (w : Byte) : (hold w s).held = s.held ++ [w] := rfl
@[simp] theorem hold_inputs (w : Byte) : (hold w s).inputs = s.inputs := rfl
@[simp] theorem hold_abandoned (w : Byte) : (hold w s).abandoned = s.abandoned := rfl
@[simp] theorem hold_trace (w : Byte) : (hold w s).trace = s.trace := rfl

/-! ## A response writes STATUS, RVALID, RESULT, the phase and the trace (R17). -/

@[simp] theorem respond_calw (st : Status) (v : Option (BitVec 64)) :
    (respond st v s).calw = s.calw := rfl
@[simp] theorem respond_calValid (st : Status) (v : Option (BitVec 64)) :
    (respond st v s).calValid = s.calValid := rfl
@[simp] theorem respond_phase (st : Status) (v : Option (BitVec 64)) :
    (respond st v s).phase = .idle := rfl
@[simp] theorem respond_curop (st : Status) (v : Option (BitVec 64)) :
    (respond st v s).curop = s.curop := rfl
@[simp] theorem respond_tr (st : Status) (v : Option (BitVec 64)) :
    (respond st v s).tr = s.tr := rfl
@[simp] theorem respond_praw (st : Status) (v : Option (BitVec 64)) :
    (respond st v s).praw = s.praw := rfl
@[simp] theorem respond_status (st : Status) (v : Option (BitVec 64)) :
    (respond st v s).status = st := rfl
@[simp] theorem respond_rvalid (st : Status) (v : Option (BitVec 64)) :
    (respond st v s).rvalid = v.isSome := rfl
@[simp] theorem respond_result (st : Status) (v : Option (BitVec 64)) :
    (respond st v s).result = s.resultAfter v := rfl
@[simp] theorem respond_held (st : Status) (v : Option (BitVec 64)) :
    (respond st v s).held = s.held := rfl
@[simp] theorem respond_inputs (st : Status) (v : Option (BitVec 64)) :
    (respond st v s).inputs = s.inputs := rfl
@[simp] theorem respond_abandoned (st : Status) (v : Option (BitVec 64)) :
    (respond st v s).abandoned = s.abandoned := rfl
@[simp] theorem respond_trace (st : Status) (v : Option (BitVec 64)) :
    (respond st v s).trace = s.trace ++ [.responded st v] := rfl

/-! ## Clearing the calibration changes CALW alone (R156). -/

@[simp] theorem clearCalibration_calw : (clearCalibration s).calw = s.lostCalibration := rfl
@[simp] theorem clearCalibration_calValid : (clearCalibration s).calValid = s.calValid := rfl
@[simp] theorem clearCalibration_phase : (clearCalibration s).phase = s.phase := rfl
@[simp] theorem clearCalibration_curop : (clearCalibration s).curop = s.curop := rfl
@[simp] theorem clearCalibration_tr : (clearCalibration s).tr = s.tr := rfl
@[simp] theorem clearCalibration_praw : (clearCalibration s).praw = s.praw := rfl
@[simp] theorem clearCalibration_status : (clearCalibration s).status = s.status := rfl
@[simp] theorem clearCalibration_rvalid : (clearCalibration s).rvalid = s.rvalid := rfl
@[simp] theorem clearCalibration_result : (clearCalibration s).result = s.result := rfl
@[simp] theorem clearCalibration_held : (clearCalibration s).held = s.held := rfl
@[simp] theorem clearCalibration_inputs : (clearCalibration s).inputs = s.inputs := rfl
@[simp] theorem clearCalibration_abandoned : (clearCalibration s).abandoned = s.abandoned := rfl
@[simp] theorem clearCalibration_trace : (clearCalibration s).trace = s.trace := rfl

/-! ## Writing a calibration word changes CALW alone (R155). -/

@[simp] theorem writeCalibration_calw (k : Fin 10) (w : Word16) :
    (writeCalibration k w s).calw = s.calw.set k (.written w) := rfl
@[simp] theorem writeCalibration_calValid (k : Fin 10) (w : Word16) :
    (writeCalibration k w s).calValid = s.calValid := rfl
@[simp] theorem writeCalibration_phase (k : Fin 10) (w : Word16) :
    (writeCalibration k w s).phase = s.phase := rfl
@[simp] theorem writeCalibration_curop (k : Fin 10) (w : Word16) :
    (writeCalibration k w s).curop = s.curop := rfl
@[simp] theorem writeCalibration_tr (k : Fin 10) (w : Word16) :
    (writeCalibration k w s).tr = s.tr := rfl
@[simp] theorem writeCalibration_praw (k : Fin 10) (w : Word16) :
    (writeCalibration k w s).praw = s.praw := rfl
@[simp] theorem writeCalibration_status (k : Fin 10) (w : Word16) :
    (writeCalibration k w s).status = s.status := rfl
@[simp] theorem writeCalibration_rvalid (k : Fin 10) (w : Word16) :
    (writeCalibration k w s).rvalid = s.rvalid := rfl
@[simp] theorem writeCalibration_result (k : Fin 10) (w : Word16) :
    (writeCalibration k w s).result = s.result := rfl
@[simp] theorem writeCalibration_held (k : Fin 10) (w : Word16) :
    (writeCalibration k w s).held = s.held := rfl
@[simp] theorem writeCalibration_inputs (k : Fin 10) (w : Word16) :
    (writeCalibration k w s).inputs = s.inputs := rfl
@[simp] theorem writeCalibration_abandoned (k : Fin 10) (w : Word16) :
    (writeCalibration k w s).abandoned = s.abandoned := rfl
@[simp] theorem writeCalibration_trace (k : Fin 10) (w : Word16) :
    (writeCalibration k w s).trace = s.trace := rfl

/-! ## Reset puts every register at its reset value (R280) and keeps what is outside the engine. -/

@[simp] theorem resetEngine_calw : (resetEngine s).calw = noCalibration := rfl
@[simp] theorem resetEngine_calValid : (resetEngine s).calValid = false := rfl
@[simp] theorem resetEngine_phase : (resetEngine s).phase = .idle := rfl
@[simp] theorem resetEngine_curop : (resetEngine s).curop = .atReset := rfl
@[simp] theorem resetEngine_tr : (resetEngine s).tr = .atReset := rfl
@[simp] theorem resetEngine_praw : (resetEngine s).praw = .atReset := rfl
@[simp] theorem resetEngine_status : (resetEngine s).status = .none := rfl
@[simp] theorem resetEngine_rvalid : (resetEngine s).rvalid = false := rfl
@[simp] theorem resetEngine_result : (resetEngine s).result = .atReset := rfl
@[simp] theorem resetEngine_held : (resetEngine s).held = s.held := rfl
@[simp] theorem resetEngine_inputs : (resetEngine s).inputs = s.inputs := rfl
@[simp] theorem resetEngine_abandoned :
    (resetEngine s).abandoned = if s.busy then s.abandoned + 1 else s.abandoned := rfl
@[simp] theorem resetEngine_trace : (resetEngine s).trace = s.trace := rfl

/-! ## An error writes what a response writes, and a failed INIT clears CALW (R254, R255) -/

@[simp] theorem raise_calw (e : ErrorKind) :
    (raise e s).calw = if s.phase.isInit then s.lostCalibration else s.calw := by
  unfold raise; split <;> simp
@[simp] theorem raise_calValid (e : ErrorKind) :
    (raise e s).calValid = s.calValid := by
  unfold raise; split <;> simp
@[simp] theorem raise_phase (e : ErrorKind) :
    (raise e s).phase = .idle := by
  unfold raise; split <;> simp
@[simp] theorem raise_curop (e : ErrorKind) :
    (raise e s).curop = s.curop := by
  unfold raise; split <;> simp
@[simp] theorem raise_tr (e : ErrorKind) :
    (raise e s).tr = s.tr := by
  unfold raise; split <;> simp
@[simp] theorem raise_praw (e : ErrorKind) :
    (raise e s).praw = s.praw := by
  unfold raise; split <;> simp
@[simp] theorem raise_status (e : ErrorKind) :
    (raise e s).status = e.status := by
  unfold raise; split <;> simp
@[simp] theorem raise_rvalid (e : ErrorKind) :
    (raise e s).rvalid = false := by
  unfold raise; split <;> simp
@[simp] theorem raise_result (e : ErrorKind) :
    (raise e s).result = s.lostResult := by
  unfold raise; split <;> rfl
@[simp] theorem raise_held (e : ErrorKind) :
    (raise e s).held = s.held := by
  unfold raise; split <;> simp
@[simp] theorem raise_inputs (e : ErrorKind) :
    (raise e s).inputs = s.inputs := by
  unfold raise; split <;> simp
@[simp] theorem raise_abandoned (e : ErrorKind) :
    (raise e s).abandoned = s.abandoned := by
  unfold raise; split <;> simp
@[simp] theorem raise_trace (e : ErrorKind) :
    (raise e s).trace = s.trace ++ [.responded e.status none] := by
  unfold raise; split <;> simp

/-! ## The ports of the state -/

@[simp] theorem busy_eq_false : s.busy = false ↔ s.phase = .idle := by
  simp [State.busy]

@[simp] theorem busy_eq_true : s.busy = true ↔ s.phase ≠ .idle := by
  simp [State.busy]

@[simp] theorem getElem_noCalibration (k : Nat) (h : k < 10) : noCalibration[k] = .atReset := by
  simp [noCalibration]

end Sys2Proof.Machine
end

