-- ==== Sys2Proof/Laws/Ops.lean ====
section
/-! SUPPORT. What each shared operation can answer, said once: the provers cite these instead of
unfolding the operation. -/

namespace Sys2Proof.Machine

open Sys2Proof

variable {s t : State}

/-! ## Taking an answer (R61, R66, R71, R79, R251) -/

/-- A read goes on with the word of a two-byte answer or ends the operation on a failure. -/
theorem readAnswer_next {go : Word16 → State → Outcome} (h : readAnswer s go = .next t) :
    (∃ b0 b1 rest, s.inputs = .answer (.bytes [b0, b1]) :: rest ∧
      go (word16 b0 b1) { s with inputs := rest } = .next t) ∨
    (∃ rest, s.inputs = .answer .failure :: rest ∧
      t = raise .transport { s with inputs := rest }) := by
  unfold readAnswer at h
  split at h
  · next b0 b1 rest hi => exact .inl ⟨b0, b1, rest, hi, h⟩
  · simp at h
  · next rest hi => exact .inr ⟨rest, hi, by simpa using h.symm⟩
  all_goals simp at h

/-- A write goes on after a success or ends the operation on a failure. -/
theorem writeAnswer_next {go : State → Outcome} (h : writeAnswer s go = .next t) :
    (∃ rest, s.inputs = .answer .ok :: rest ∧ go { s with inputs := rest } = .next t) ∨
    (∃ rest, s.inputs = .answer .failure :: rest ∧
      t = raise .transport { s with inputs := rest }) := by
  unfold writeAnswer at h
  split at h
  · next rest hi => exact .inl ⟨rest, hi, h⟩
  · next rest hi => exact .inr ⟨rest, hi, by simpa using h.symm⟩
  all_goals simp at h

/-- A sleep goes on after its completion and in no other way. -/
theorem sleepAnswer_next {go : State → Outcome} (h : sleepAnswer s go = .next t) :
    ∃ rest, s.inputs = .answer .slept :: rest ∧ go { s with inputs := rest } = .next t := by
  unfold sleepAnswer at h
  split at h
  · next rest hi => exact ⟨rest, hi, h⟩
  all_goals simp at h

theorem readAnswer_bytes {go : Word16 → State → Outcome} {b0 b1 : Byte} {rest : List Input}
    (h : s.inputs = .answer (.bytes [b0, b1]) :: rest) :
    readAnswer s go = go (word16 b0 b1) { s with inputs := rest } := by
  unfold readAnswer; rw [h]

theorem readAnswer_failure {go : Word16 → State → Outcome} {rest : List Input}
    (h : s.inputs = .answer .failure :: rest) :
    readAnswer s go = .next (raise .transport { s with inputs := rest }) := by
  unfold readAnswer; rw [h]

theorem writeAnswer_ok {go : State → Outcome} {rest : List Input}
    (h : s.inputs = .answer .ok :: rest) : writeAnswer s go = go { s with inputs := rest } := by
  unfold writeAnswer; rw [h]

theorem writeAnswer_failure {go : State → Outcome} {rest : List Input}
    (h : s.inputs = .answer .failure :: rest) :
    writeAnswer s go = .next (raise .transport { s with inputs := rest }) := by
  unfold writeAnswer; rw [h]

theorem sleepAnswer_slept {go : State → Outcome} {rest : List Input}
    (h : s.inputs = .answer .slept :: rest) : sleepAnswer s go = go { s with inputs := rest } := by
  unfold sleepAnswer; rw [h]

/-! ## The shapes of the instructions -/

theorem performed_of_emitted {i : Instr} {go : Outcome} (h : s.emitted = some i) :
    performed i s go = go := if_pos h

theorem performed_next {i : Instr} {go : Outcome} (h : performed i s go = .next t) :
    s.emitted = some i ∧ go = .next t := by
  unfold performed at h
  split at h
  · next he => exact ⟨he, h⟩
  · simp at h

theorem requested_idle {w : Byte} {go : State → Outcome} (h : s.phase = .idle) :
    requested w s go = go s := by
  simp [requested, State.busy, h]

theorem requested_busy {w : Byte} {go : State → Outcome} (h : s.phase ≠ .idle) :
    requested w s go = .next (hold w s) := by
  simp [requested, State.busy, h]

theorem startConversion_valid {w : Byte} (h : s.calValid = true) :
    startConversion w s = .next (enter .tCmd (accept w s)) := if_pos h

theorem startConversion_invalid {w : Byte} (h : s.calValid = false) :
    startConversion w s = .next (raise .uninitialized (accept w s)) := by
  simp [startConversion, h]

/-- What a calibration read can do: write its word and go on (R155), or clear the calibration on a
failure (R156). -/
theorem calibrationRead_next {k : Fin 10} (h : calibrationRead k s = .next t) :
    s.emitted = some (calInstr k) ∧
    ((∃ b0 b1 rest, s.inputs = .answer (.bytes [b0, b1]) :: rest ∧
      t = afterCalibrationWord k (writeCalibration k (word16 b0 b1) { s with inputs := rest })) ∨
    (∃ rest, s.inputs = .answer .failure :: rest ∧
      t = raise .transport { s with inputs := rest })) := by
  obtain ⟨he, h⟩ := performed_next h
  refine ⟨he, ?_⟩
  rcases readAnswer_next h with ⟨b0, b1, rest, hi, hg⟩ | hf
  · exact .inl ⟨b0, b1, rest, hi, by simpa using hg.symm⟩
  · exact .inr hf

/-- What a command write can do: issue its settle delay, or end the operation. -/
theorem commandWrite_next {i : Instr} {p : Phase} (h : commandWrite i p s = .next t) :
    s.emitted = some i ∧
    ((∃ rest, s.inputs = .answer .ok :: rest ∧ t = enter p { s with inputs := rest }) ∨
    (∃ rest, s.inputs = .answer .failure :: rest ∧
      t = raise .transport { s with inputs := rest })) := by
  obtain ⟨he, h⟩ := performed_next h
  refine ⟨he, ?_⟩
  rcases writeAnswer_next h with ⟨rest, hi, hg⟩ | hf
  · exact .inl ⟨rest, hi, by simpa using hg.symm⟩
  · exact .inr hf

/-- The end of TRAW and TEMP is a response with TCOMP of the registers (R185, R186). -/
@[simp] theorem endTemperature_eq (f : Int → BitVec 64) (s : State) :
    endTemperature f s = respond .ok
      (some (f (tcomp (s.coefficient 0) (s.coefficient 1) (decS16 s.tr.value)))) s := rfl

/-- The end of PRES is a response with PCOMP of the registers (R217). -/
@[simp] theorem endPressure_eq (s : State) : endPressure s = respond .ok (some s.pressure) s := rfl

/-- A host read changes the trace alone (R45). -/
theorem hostRead_next {r : HostRead} (h : hostRead r s = .next t) :
    ∃ v, readPort r s = .next v ∧ t = emit (.gave r v) s := by
  unfold hostRead at h
  split at h
  · next v hv => exact ⟨v, hv, by simpa using h.symm⟩
  · simp at h
  · simp at h

end Sys2Proof.Machine
end

