-- ==== Sys2Proof/Laws/PerInstr.lean ====
section
/-! SUPPORT. What holds of every row of the opcode table, one lemma per row. -/

namespace Sys2Proof.Laws.OneRow

open Sys2Proof

/-- The byte of an instruction lies in exactly one row of its format's table, its own (R91, R94, R96): no
two rows of a format overlap there. -/
def Statement (i : Instr) : Prop :=
  (i.format.rows.filter (fun r => r.holds i.byte)).map Row.instr = [i]

theorem init : Statement .init := rfl
theorem traw : Statement .traw := rfl
theorem temp : Statement .temp := rfl
theorem presLow : Statement .presLow := rfl
theorem presStandard : Statement .presStandard := rfl
theorem presHigh : Statement .presHigh := rfl
theorem presUltra : Statement .presUltra := rfl
theorem sensorCmdTemp : Statement .sensorCmdTemp := rfl
theorem sensorCmdLow : Statement .sensorCmdLow := rfl
theorem sensorCmdStandard : Statement .sensorCmdStandard := rfl
theorem sensorCmdHigh : Statement .sensorCmdHigh := rfl
theorem sensorCmdUltra : Statement .sensorCmdUltra := rfl
theorem calAddrC1 : Statement .calAddrC1 := rfl
theorem calAddrC2 : Statement .calAddrC2 := rfl
theorem calAddrC3 : Statement .calAddrC3 := rfl
theorem calAddrC4 : Statement .calAddrC4 := rfl
theorem calAddrC5 : Statement .calAddrC5 := rfl
theorem calAddrC6 : Statement .calAddrC6 := rfl
theorem calAddrC7 : Statement .calAddrC7 := rfl
theorem calAddrC8 : Statement .calAddrC8 := rfl
theorem calAddrC9 : Statement .calAddrC9 := rfl
theorem calAddrC10 : Statement .calAddrC10 := rfl

end Sys2Proof.Laws.OneRow
end

