-- ==== Sys2Proof/Laws/Step.lean ====
section
/-! SUPPORT. Everything a step can do, as one relation, and the proof that a step does nothing else. -/

namespace Sys2Proof.Machine

open Sys2Proof

/-! ## The opwords -/

/-- The opwords of TRAW, TEMP and PRES (R91). -/
def isConversionOpword (w : Byte) : Bool :=
  w == 0x02 || w == 0x03 || (opwordMode w).isSome

theorem decodeByte_hostOp_some {w : Byte} {i : Instr} (h : decodeByte .hostOp w = some i) :
    i.byte = w ∧ i.format = .hostOp := by
  revert i
  revert w
  decide

theorem opwordMode_presOpword (m : Mode) : opwordMode (presOpword m) = some m := by
  cases m <;> decide

theorem opwordMode_eq_some {w : Byte} {m : Mode} : opwordMode w = some m ↔ w = presOpword m := by
  revert w
  cases m <;> decide

theorem calInstr_inj {k l : Fin 10} : calInstr k = calInstr l → k = l := by
  revert k l; decide

theorem modeInstr_inj {m n : Mode} : modeInstr m = modeInstr n → m = n := by
  cases m <;> cases n <;> decide

theorem calInstr_format (k : Fin 10) : (calInstr k).format = .calAddr := by
  revert k; decide

theorem modeInstr_format (m : Mode) : (modeInstr m).format = .sensorCmd := by
  cases m <;> rfl

theorem calInstr_ne_modeInstr (k : Fin 10) (m : Mode) : calInstr k ≠ modeInstr m := by
  intro h
  have := congrArg Instr.format h
  rw [calInstr_format, modeInstr_format] at this
  cases this

theorem calInstr_ne_sensorCmdTemp (k : Fin 10) : calInstr k ≠ .sensorCmdTemp := by
  revert k; decide

theorem modeInstr_ne_sensorCmdTemp (m : Mode) : modeInstr m ≠ .sensorCmdTemp := by
  cases m <;> decide

/-- The phases in which a transport answer can be a failure (R251). -/
def Phase.awaitsTransport : Phase → Bool
  | .initRd _ | .tCmd | .tRd | .pCmd | .pRd => true
  | .idle | .tWait | .pWait => false

/-! ## The transitions -/

/-- Everything a step can do (R36, R45, R155, R183, R211, R254, R267, R280). -/
inductive Transition (s : State) : State → Prop
  /-- INIT is accepted. -/
  | initAccepted (rest : List Byte) (hp : s.phase = .idle) (hh : s.held = 0x01 :: rest)
      (hv : s.calValid = false) :
      Transition s (enter (.initRd 0) (accept 0x01 { s with held := rest }))
  /-- TRAW, TEMP or PRES is accepted with the calibration valid. -/
  | conversionAccepted (w : Byte) (rest : List Byte) (hp : s.phase = .idle)
      (hh : s.held = w :: rest) (hw : isConversionOpword w = true) (hv : s.calValid = true) :
      Transition s (enter .tCmd (accept w { s with held := rest }))
  /-- TRAW, TEMP or PRES is accepted without a calibration (R252). -/
  | uninitialized (w : Byte) (rest : List Byte) (hp : s.phase = .idle)
      (hh : s.held = w :: rest) (hw : isConversionOpword w = true) (hv : s.calValid = false) :
      Transition s (raise .uninitialized (accept w { s with held := rest }))
  /-- A calibration word comes. -/
  | calibrationWord (k : Fin 10) (b0 b1 : Byte) (rest : List Input) (hp : s.phase = .initRd k)
      (hi : s.inputs = .answer (.bytes [b0, b1]) :: rest) :
      Transition s
        (afterCalibrationWord k (writeCalibration k (word16 b0 b1) { s with inputs := rest }))
  /-- The transport fails (R254). -/
  | failed (rest : List Input) (hp : s.phase.awaitsTransport = true)
      (hi : s.inputs = .answer .failure :: rest) :
      Transition s (raise .transport { s with inputs := rest })
  /-- The temperature command is written. -/
  | temperatureCommand (rest : List Input) (hp : s.phase = .tCmd)
      (hi : s.inputs = .answer .ok :: rest) : Transition s (enter .tWait { s with inputs := rest })
  /-- The pressure command is written. -/
  | pressureCommand (m : Mode) (rest : List Input) (hp : s.phase = .pCmd)
      (hm : s.curop.value = presOpword m) (hi : s.inputs = .answer .ok :: rest) :
      Transition s (enter .pWait { s with inputs := rest })
  /-- The temperature delay completes. -/
  | temperatureDelayDone (rest : List Input) (hp : s.phase = .tWait)
      (hi : s.inputs = .answer .slept :: rest) : Transition s (enter .tRd { s with inputs := rest })
  /-- The pressure delay completes. -/
  | pressureDelayDone (m : Mode) (rest : List Input) (hp : s.phase = .pWait)
      (hm : s.curop.value = presOpword m) (hi : s.inputs = .answer .slept :: rest) :
      Transition s (enter .pRd { s with inputs := rest })
  /-- TRAW or TEMP ends with its compute. -/
  | temperatureEnds (f : Int → BitVec 64) (b0 b1 : Byte) (rest : List Input)
      (hp : s.phase = .tRd)
      (hf : (s.curop.value = 0x02 ∧ f = trawResult) ∨ (s.curop.value = 0x03 ∧ f = tdeg))
      (hi : s.inputs = .answer (.bytes [b0, b1]) :: rest) :
      Transition s (endTemperature f { s with inputs := rest, tr := .written (word16 b0 b1) })
  /-- PRES goes on to its own conversion. -/
  | pressureStarts (m : Mode) (b0 b1 : Byte) (rest : List Input) (hp : s.phase = .tRd)
      (hm : s.curop.value = presOpword m) (hi : s.inputs = .answer (.bytes [b0, b1]) :: rest) :
      Transition s (enter .pCmd { s with inputs := rest, tr := .written (word16 b0 b1) })
  /-- PRES ends with its compute. -/
  | pressureEnds (m : Mode) (b0 b1 : Byte) (rest : List Input) (hp : s.phase = .pRd)
      (hm : s.curop.value = presOpword m) (hi : s.inputs = .answer (.bytes [b0, b1]) :: rest) :
      Transition s (endPressure { s with inputs := rest, praw := .written (word16 b0 b1) })
  /-- A request arrives and is held (R267). -/
  | requestArrives (w : Byte) (rest : List Input) (hp : s.phase ≠ .idle ∨ s.held = [])
      (hi : s.inputs = .request w :: rest) : Transition s (hold w { s with inputs := rest })
  /-- The host reads a register (R45). -/
  | portRead (r : HostRead) (v : HostValue) (rest : List Input)
      (hp : s.phase ≠ .idle ∨ s.held = []) (hi : s.inputs = .read r :: rest)
      (hv : readPort r { s with inputs := rest } = .next v) :
      Transition s (emit (.gave r v) { s with inputs := rest })
  /-- An answer to an abandoned request is not taken (R281). -/
  | lateAnswerDropped (rest : List Input) (hp : s.phase ≠ .idle ∨ s.held = [])
      (hi : s.inputs = .lateAnswer :: rest) (ha : 0 < s.abandoned) :
      Transition s { s with inputs := rest, abandoned := s.abandoned - 1 }
  /-- The engine is reset (R280). -/
  | resetTaken (rest : List Input) (hp : s.phase ≠ .idle ∨ s.held = [])
      (hi : s.inputs = .reset :: rest) : Transition s (resetEngine { s with inputs := rest })
  /-- Nothing is requested and nothing comes. -/
  | rests (hp : s.phase = .idle) (hh : s.held = []) (hi : s.inputs = []) : Transition s s

variable {s t : State}

/-- What acceptance of a decoded opword can do. -/
theorem exec_hostOp_next {w : Byte} {i : Instr} {rest : List Byte}
    (hp : s.phase = .idle) (hh : s.held = w :: rest)
    (hd : decodeByte .hostOp w = some i) (h : exec i { s with held := rest } = .next t) :
    Transition s t := by
  obtain ⟨hb, hf⟩ := decodeByte_hostOp_some hd
  have conv : isConversionOpword w = true → startConversion w { s with held := rest } = .next t →
      Transition s t := by
    intro hw hs
    by_cases hv : s.calValid = true
    · rw [startConversion_valid (by exact hv)] at hs
      obtain rfl : _ = t := by simpa using hs
      exact .conversionAccepted w rest hp hh hw hv
    · rw [startConversion_invalid (by simpa using hv)] at hs
      obtain rfl : _ = t := by simpa using hs
      exact .uninitialized w rest hp hh hw (by simpa using hv)
  cases i <;> simp [Instr.format] at hf <;> simp only [Instr.byte] at hb <;> subst hb
  case init =>
    rw [exec, execInit, requested_idle (by exact hp)] at h
    split at h
    · simp at h
    · next hv =>
      obtain rfl : _ = t := by simpa using h
      exact .initAccepted rest hp hh (by simpa using hv)
  case traw => exact conv (by decide) (by rwa [exec, execTraw, requested_idle (by exact hp)] at h)
  case temp => exact conv (by decide) (by rwa [exec, execTemp, requested_idle (by exact hp)] at h)
  case presLow =>
    exact conv (by decide) (by rwa [exec, execPresLow, requested_idle (by exact hp)] at h)
  case presStandard =>
    exact conv (by decide) (by rwa [exec, execPresStandard, requested_idle (by exact hp)] at h)
  case presHigh =>
    exact conv (by decide) (by rwa [exec, execPresHigh, requested_idle (by exact hp)] at h)
  case presUltra =>
    exact conv (by decide) (by rwa [exec, execPresUltra, requested_idle (by exact hp)] at h)

/-- The word a phase emits, and the phase that emits a word (R35, R94, R96). -/
theorem emitted_cases {i : Instr} (h : s.emitted = some i) :
    (∃ k, s.phase = .initRd k ∧ i = calInstr k) ∨ (s.phase = .tCmd ∧ i = .sensorCmdTemp) ∨
    (∃ m, s.phase = .pCmd ∧ s.curop.value = presOpword m ∧ i = modeInstr m) := by
  unfold State.emitted at h
  split at h
  · next k hp => exact .inl ⟨k, hp, by simpa using h.symm⟩
  · next hp => exact .inr (.inl ⟨hp, by simpa using h.symm⟩)
  · next hp =>
    obtain ⟨m, hm, hi⟩ := Option.map_eq_some_iff.mp h
    exact .inr (.inr ⟨m, hp, opwordMode_eq_some.mp hm, hi.symm⟩)
  all_goals simp at h

theorem emitted_calInstr {k : Fin 10} (h : s.emitted = some (calInstr k)) :
    s.phase = .initRd k := by
  rcases emitted_cases h with ⟨l, hp, hi⟩ | ⟨_, hi⟩ | ⟨m, _, _, hi⟩
  · rw [hp, calInstr_inj hi]
  · exact absurd hi (calInstr_ne_sensorCmdTemp k)
  · exact absurd hi (calInstr_ne_modeInstr k m)

theorem emitted_sensorCmdTemp (h : s.emitted = some .sensorCmdTemp) : s.phase = .tCmd := by
  rcases emitted_cases h with ⟨l, hp, hi⟩ | ⟨hp, _⟩ | ⟨m, _, _, hi⟩
  · exact absurd hi.symm (calInstr_ne_sensorCmdTemp l)
  · exact hp
  · exact absurd hi.symm (modeInstr_ne_sensorCmdTemp m)

theorem emitted_modeInstr {m : Mode} (h : s.emitted = some (modeInstr m)) :
    s.phase = .pCmd ∧ s.curop.value = presOpword m := by
  rcases emitted_cases h with ⟨l, hp, hi⟩ | ⟨hp, hi⟩ | ⟨n, hp, hc, hi⟩
  · exact absurd hi.symm (calInstr_ne_modeInstr l m)
  · exact absurd hi (modeInstr_ne_sensorCmdTemp m)
  · rw [modeInstr_inj hi]; exact ⟨hp, hc⟩

theorem commandWrite_modeInstr_next {m : Mode} (h : commandWrite (modeInstr m) .pWait s = .next t) :
    Transition s t := by
  obtain ⟨he, h⟩ := commandWrite_next h
  obtain ⟨hp, hm⟩ := emitted_modeInstr he
  rcases h with ⟨rest, hi, rfl⟩ | ⟨rest, hi, rfl⟩
  · exact .pressureCommand m rest hp hm hi
  · exact .failed rest (by simp [hp, Phase.awaitsTransport]) hi

theorem calibrationRead_transition {k : Fin 10} (h : calibrationRead k s = .next t) :
    Transition s t := by
  obtain ⟨he, h⟩ := calibrationRead_next h
  have hp := emitted_calInstr he
  rcases h with ⟨b0, b1, rest, hi, rfl⟩ | ⟨rest, hi, rfl⟩
  · exact .calibrationWord k b0 b1 rest hp hi
  · exact .failed rest (by simp [hp, Phase.awaitsTransport]) hi

/-- What an emitted word can do. -/
theorem exec_emitted_next {i : Instr} (he : s.emitted = some i) (h : exec i s = .next t) :
    Transition s t := by
  have hf : i.format ≠ .hostOp := by
    rcases emitted_cases he with ⟨k, _, rfl⟩ | ⟨_, rfl⟩ | ⟨m, _, _, rfl⟩
    · rw [calInstr_format]; decide
    · decide
    · rw [modeInstr_format]; decide
  cases i
  case init | traw | temp | presLow | presStandard | presHigh | presUltra =>
    exact absurd rfl hf
  case sensorCmdTemp =>
    obtain ⟨_, h⟩ := commandWrite_next (show commandWrite .sensorCmdTemp .tWait s = _ from h)
    have hp := emitted_sensorCmdTemp he
    rcases h with ⟨rest, hi, rfl⟩ | ⟨rest, hi, rfl⟩
    · exact .temperatureCommand rest hp hi
    · exact .failed rest (by simp [hp, Phase.awaitsTransport]) hi
  case sensorCmdLow => exact commandWrite_modeInstr_next (m := .low) h
  case sensorCmdStandard => exact commandWrite_modeInstr_next (m := .standard) h
  case sensorCmdHigh => exact commandWrite_modeInstr_next (m := .high) h
  case sensorCmdUltra => exact commandWrite_modeInstr_next (m := .ultra) h
  case calAddrC1 => exact calibrationRead_transition (k := 0) h
  case calAddrC2 => exact calibrationRead_transition (k := 1) h
  case calAddrC3 => exact calibrationRead_transition (k := 2) h
  case calAddrC4 => exact calibrationRead_transition (k := 3) h
  case calAddrC5 => exact calibrationRead_transition (k := 4) h
  case calAddrC6 => exact calibrationRead_transition (k := 5) h
  case calAddrC7 => exact calibrationRead_transition (k := 6) h
  case calAddrC8 => exact calibrationRead_transition (k := 7) h
  case calAddrC9 => exact calibrationRead_transition (k := 8) h
  case calAddrC10 => exact calibrationRead_transition (k := 9) h

theorem curop_of_mode (h : s.mode.isSome = true) : ∃ m, s.curop.value = presOpword m := by
  obtain ⟨m, hm⟩ := Option.isSome_iff_exists.mp h
  exact ⟨m, opwordMode_eq_some.mp hm⟩

theorem temperatureRead_next (hp : s.phase = .tRd) (h : temperatureRead s = .next t) :
    Transition s t := by
  rcases readAnswer_next h with ⟨b0, b1, rest, hi, hg⟩ | ⟨rest, hi, rfl⟩
  · simp only at hg
    split at hg
    · next hd =>
      obtain rfl : _ = t := by simpa using hg
      exact .temperatureEnds _ b0 b1 rest hp
        (.inl ⟨(decodeByte_hostOp_some hd).1.symm, rfl⟩) hi
    · next hd =>
      obtain rfl : _ = t := by simpa using hg
      exact .temperatureEnds _ b0 b1 rest hp
        (.inr ⟨(decodeByte_hostOp_some hd).1.symm, rfl⟩) hi
    · split at hg
      · next hm =>
        obtain ⟨m, hm⟩ := curop_of_mode hm
        obtain rfl : _ = t := by simpa using hg
        exact .pressureStarts m b0 b1 rest hp hm hi
      · simp at hg
  · exact .failed rest (by simp [hp, Phase.awaitsTransport]) hi

theorem pressureRead_next (hp : s.phase = .pRd) (h : pressureRead s = .next t) :
    Transition s t := by
  rcases readAnswer_next h with ⟨b0, b1, rest, hi, hg⟩ | ⟨rest, hi, rfl⟩
  · simp only at hg
    split at hg
    · next hm =>
      obtain ⟨m, hm⟩ := curop_of_mode hm
      obtain rfl : _ = t := by simpa using hg
      exact .pressureEnds m b0 b1 rest hp hm hi
    · simp at hg
  · exact .failed rest (by simp [hp, Phase.awaitsTransport]) hi

theorem answerPort_next (h : answerPort s = .next t) : Transition s t := by
  unfold answerPort at h
  split at h
  · next hp =>
    obtain ⟨rest, hi, hg⟩ := sleepAnswer_next h
    obtain rfl : _ = t := by simpa using hg
    exact .temperatureDelayDone rest hp hi
  · next hp => exact temperatureRead_next hp h
  · next hp => exact pressureRead_next hp h
  · next hp =>
    split at h
    · next hm =>
      obtain ⟨m, hm⟩ := curop_of_mode hm
      obtain ⟨rest, hi, hg⟩ := sleepAnswer_next h
      obtain rfl : _ = t := by simpa using hg
      exact .pressureDelayDone m rest hp hm hi
    · simp at h
  all_goals simp at h

theorem runInput_next (hp : s.phase ≠ .idle ∨ s.held = []) (h : runInput s = .next t) :
    Transition s t := by
  unfold runInput at h
  split at h
  · next hi =>
    unfold noInput at h
    split at h
    · simp at h
    · next hb =>
      obtain rfl : s = t := by simpa using h
      have hidle : s.phase = .idle := by simpa using hb
      exact .rests hidle (by simpa [hidle] using hp) hi
  · unfold runAnswer at h
    split at h
    · next i he => exact exec_emitted_next he h
    · exact answerPort_next h
  · next w rest hi =>
    obtain rfl : _ = t := by simpa using h
    exact .requestArrives w rest hp hi
  · next r rest hi =>
    obtain ⟨v, hv, rfl⟩ := hostRead_next h
    exact .portRead r v rest hp hi hv
  · next rest hi =>
    unfold lateAnswer at h
    split at h
    · next ha =>
      obtain rfl : _ = t := by simpa using h
      exact .lateAnswerDropped rest hp hi ha
    · simp at h
  · next rest hi =>
    obtain rfl : _ = t := by simpa using h
    exact .resetTaken rest hp hi

/-- A step that answers a next state makes one of the transitions. -/
theorem step_transition (h : step s = .next t) : Transition s t := by
  unfold step at h
  split at h
  · next w rest hp hh =>
    unfold runRequest at h
    split at h
    · next i hd => exact exec_hostOp_next hp hh hd h
    · simp at h
  · next hn =>
    refine runInput_next ?_ h
    by_cases hp : s.phase = .idle
    · right
      cases hh : s.held with
      | nil => rfl
      | cons w rest => exact absurd hh (hn w rest hp)
    · exact .inl hp

end Sys2Proof.Machine
end

