-- ==== Sys2Proof/Laws/Phases.lean ====
section
/-! SUPPORT. What each phase waits for, and which definition a step runs in it. A proof about one phase
starts from these and never unfolds `step`, `exec` or `State.outstanding`. -/

namespace Sys2Proof.Machine

open Sys2Proof

variable {s t : State}

/-! ## The words and the requests of the phases -/

theorem mode_of_curop {m : Mode} (h : s.curop.value = presOpword m) : s.mode = some m := by
  simp [State.mode, h, opwordMode_presOpword]

theorem emitted_initRd {k : Fin 10} (h : s.phase = .initRd k) : s.emitted = some (calInstr k) := by
  simp [State.emitted, h]

theorem emitted_tCmd (h : s.phase = .tCmd) : s.emitted = some .sensorCmdTemp := by
  simp [State.emitted, h]

theorem emitted_pCmd {m : Mode} (h : s.phase = .pCmd) (hm : s.curop.value = presOpword m) :
    s.emitted = some (modeInstr m) := by
  simp [State.emitted, h, mode_of_curop hm]

theorem emitted_eq_none (h : s.phase = .idle ∨ s.phase = .tWait ∨ s.phase = .tRd ∨
    s.phase = .pWait ∨ s.phase = .pRd) : s.emitted = none := by
  rcases h with h | h | h | h | h <;> simp [State.emitted, h]

theorem outstanding_idle (h : s.phase = .idle) : s.outstanding = none := by
  simp [State.outstanding, State.emitted, h]

theorem outstanding_initRd {k : Fin 10} (h : s.phase = .initRd k) :
    s.outstanding = some (.busRead devAddr (calAddr k) 2) := by
  simp only [State.outstanding, h, emitted_initRd h, Option.bind_some, emittedRequest,
    calInstr_format]
  rw [show (calInstr k).byte = calAddr k by clear h; revert k; decide]

theorem outstanding_tCmd (h : s.phase = .tCmd) :
    s.outstanding = some (.busWrite devAddr commandRegister [0x03]) := by
  simp [State.outstanding, h, emitted_tCmd h, emittedRequest, Instr.format, Instr.byte]

theorem outstanding_tWait (h : s.phase = .tWait) :
    s.outstanding = some (.sleep temperatureDelay) := by
  simp [State.outstanding, h]

theorem outstanding_tRd (h : s.phase = .tRd) :
    s.outstanding = some (.busRead devAddr dataRegister 2) := by
  simp [State.outstanding, h]

theorem outstanding_pCmd {m : Mode} (h : s.phase = .pCmd) (hm : s.curop.value = presOpword m) :
    s.outstanding = some (.busWrite devAddr commandRegister [modeByte m]) := by
  simp only [State.outstanding, h, emitted_pCmd h hm, Option.bind_some, emittedRequest,
    modeInstr_format]
  cases m <;> rfl

theorem outstanding_pWait {m : Mode} (h : s.phase = .pWait)
    (hm : s.curop.value = presOpword m) : s.outstanding = some (.sleep (modeDelay m)) := by
  simp [State.outstanding, h, mode_of_curop hm]

theorem outstanding_pRd (h : s.phase = .pRd) :
    s.outstanding = some (.busRead devAddr dataRegister 2) := by
  simp [State.outstanding, h]

/-- Entering a phase records the request of that phase (R35). -/
theorem enter_trace_of_outstanding {p : Phase} {r : Request}
    (h : State.outstanding { s with phase := p } = some r) :
    (enter p s).trace = s.trace ++ [.issued r] := by
  simp [h]

/-! ## What the meanings of the emitted words are -/

theorem exec_calInstr (k : Fin 10) (s : State) : exec (calInstr k) s = calibrationRead k s := by
  match k with
  | 0 | 1 | 2 | 3 | 4 | 5 | 6 | 7 | 8 | 9 => rfl

theorem exec_modeInstr (m : Mode) (s : State) :
    exec (modeInstr m) s = commandWrite (modeInstr m) .pWait s := by
  cases m <;> rfl

/-! ## What a step runs -/

theorem step_input (h : s.phase ≠ .idle ∨ s.held = []) : step s = runInput s := by
  unfold step
  split
  · next hp hh =>
    rcases h with h | h
    · exact absurd hp h
    · rw [h] at hh; cases hh
  · rfl

theorem step_answer {a : Answer} {rest : List Input} (hp : s.phase ≠ .idle)
    (hi : s.inputs = .answer a :: rest) : step s = runAnswer s := by
  rw [step_input (.inl hp), runInput, hi]

theorem step_answerPort {a : Answer} {rest : List Input} (hp : s.phase = .tWait ∨ s.phase = .tRd ∨
    s.phase = .pWait ∨ s.phase = .pRd) (hi : s.inputs = .answer a :: rest) :
    step s = answerPort s := by
  rw [step_answer (by rcases hp with h | h | h | h <;> simp [h]) hi, runAnswer,
    emitted_eq_none (.inr hp)]

/-! ## Runs -/

theorem run_zero (s : State) : core.run 0 s = .next s := rfl

theorem run_succ {n : Nat} (h : step s = .next t) : core.run (n + 1) s = core.run n t := by
  simp only [Host.Core.run]
  rw [show core.step s = step s from rfl, h]

end Sys2Proof.Machine
end

