-- ==== Sys2Proof/Tests/Slice0.lean ====
section
/-! SUPPORT. The model's own tests. Every expected value is a worked value of 95_test_vectors.md or is read
from the rule named (one, of an unwritten register, from log entry 1); none is the model's own answer. The
second half gives, for every statement with
hypotheses, a state and operands that meet all of them. -/

namespace Sys2Proof.Tests

open Sys2Proof Sys2Proof.Machine

/-! ## Small states -/

/-- The calibration words of set A (95_test_vectors.md). -/
def wordsA : Vector (Register 16) 10 :=
  #v[.written 0x7530, .written 0x4E20, .written 0x9C40, .written 0x03E8, .written 0xFF38,
    .written 0xFE0C, .written 0x012C, .written 0xFFCE, .written 0x000A, .written 0x1388]

/-- The engine in IDLE with set A loaded. -/
def loaded : State := { State.reset with calw := wordsA, calValid := true, status := .ok }

/-- An engine in IDLE that holds one opword. -/
def holding (w : Byte) (s : State) : State := { s with held := [w] }

/-- An operation waiting in a phase, with an answer at hand. -/
def waiting (opword : Byte) (p : Phase) (a : Answer) (s : State) : State :=
  { s with phase := p, curop := .written opword, inputs := [.answer a] }

/-- An engine with some inputs to come. -/
def facing (inputs : List Input) (s : State) : State := { s with inputs := inputs }

/-- PRES waiting for its pressure sample, with the raw temperature 3058 of V2 latched. -/
def lastRead (m : Mode) (a : Answer) : State :=
  { waiting (presOpword m) .pRd a loaded with tr := .written 0x0BF2 }

/-- INIT waiting in `INIT_RD(k+1)` with the first k words read. -/
def loadingA (k : Fin 10) (a : Answer) : State :=
  { waiting 0x01 (.initRd k) a State.reset with
    calw := Vector.ofFn (fun j => if j < k then wordsA[j] else .atReset) }

/-- The next state, if there is one. -/
def next? (o : Outcome) : Option State :=
  match o with
  | .next t => some t
  | .fault _ => none
  | .refused _ => none

/-- The fault, if there is one. -/
def fault? (o : Outcome) : Option Fault :=
  match o with
  | .fault f => some f
  | .next _ => none
  | .refused _ => none

/-- The refusal, if there is one. -/
def refusal? (o : Outcome) : Option Refusal :=
  match o with
  | .refused r => some r
  | .next _ => none
  | .fault _ => none

/-! ## Well-formedness: an ill-formed term for each check -/

/-- A command byte and a calibration location are no lines of a host program (R101). -/
theorem test_emitted_word_is_no_line :
    HostLine.wf (.op .sensorCmdLow) = false ∧ HostLine.wf (.op .calAddrC1) = false ∧
    HostLine.wf (.op .presUltra) = true := by decide

/-- `READ CAL 0` and `READ CAL 11` are refused, 1 and 10 are not (R45). -/
theorem test_read_cal_range :
    HostRead.wf (.cal 0) = false ∧ HostRead.wf (.cal 11) = false ∧
    HostLine.wf (.read (.cal 0)) = false ∧ HostRead.wf (.cal 1) = true ∧
    HostRead.wf (.cal 10) = true := by decide

/-- A read answered by one or three bytes or by a write's success, a write answered by bytes, and a failed
sleep break the contract (R61, R68, R71). -/
theorem test_answers_that_do_not_fit :
    Answer.fits (.busRead 0x77 0xF5 2) (.bytes [1]) = false ∧
    Answer.fits (.busRead 0x77 0xF5 2) (.bytes [1, 2, 3]) = false ∧
    Answer.fits (.busRead 0x77 0xF5 2) .ok = false ∧
    Answer.fits (.busWrite 0x77 0xF1 [3]) (.bytes []) = false ∧
    Answer.fits (.sleep 5) .failure = false := by decide

/-! ## Decoding: every row's word, written out from R91, R94 and R96 -/

theorem test_decode_opwords :
    decode .hostOp [0b00000001] = some (.init, []) ∧
    decode .hostOp [0b00000010] = some (.traw, []) ∧
    decode .hostOp [0b00000011] = some (.temp, []) ∧
    decode .hostOp [0b10000000] = some (.presLow, []) ∧
    decode .hostOp [0b10000001] = some (.presStandard, []) ∧
    decode .hostOp [0b10010000] = some (.presHigh, []) ∧
    decode .hostOp [0b10010001] = some (.presUltra, []) := by decide

theorem test_decode_commands :
    decode .sensorCmd [0b00000011] = some (.sensorCmdTemp, []) ∧
    decode .sensorCmd [0b00000000] = some (.sensorCmdLow, []) ∧
    decode .sensorCmd [0b00000001] = some (.sensorCmdStandard, []) ∧
    decode .sensorCmd [0b00010000] = some (.sensorCmdHigh, []) ∧
    decode .sensorCmd [0b00010001] = some (.sensorCmdUltra, []) := by decide

theorem test_decode_locations :
    decode .calAddr [0b10001110] = some (.calAddrC1, []) ∧
    decode .calAddr [0b10010000] = some (.calAddrC2, []) ∧
    decode .calAddr [0b10010010] = some (.calAddrC3, []) ∧
    decode .calAddr [0b10010100] = some (.calAddrC4, []) ∧
    decode .calAddr [0b10010110] = some (.calAddrC5, []) ∧
    decode .calAddr [0b10011000] = some (.calAddrC6, []) ∧
    decode .calAddr [0b10011010] = some (.calAddrC7, []) ∧
    decode .calAddr [0b10011100] = some (.calAddrC8, []) ∧
    decode .calAddr [0b10011110] = some (.calAddrC9, []) ∧
    decode .calAddr [0b10100000] = some (.calAddrC10, []) := by decide

/-- The reserved opwords of L2.6. -/
theorem test_reserved_opwords :
    [0x00, 0x04, 0x11, 0x82, 0x84, 0xA0, 0xFF].map (decodeByte .hostOp) =
      List.replicate 7 none := by decide

/-- A table word of one byte, and one whose row the reader's "k" field made longer. -/
theorem test_decode_table_word :
    decodeTableWord 8 0x91 = some .presUltra ∧ decodeTableWord 8 0x8E = some .calAddrC1 ∧
    decodeTableWord 16 0xA0 = some .calAddrC10 ∧ decodeTableWord 8 0x04 = none := by decide

/-- Lines of P1 and P2 (L3), and a line that is none. -/
theorem test_parse_lines :
    (parseLine "PRES.ULTRA      ; 0x91".toList).bind HostLine.opword = some 0x91 ∧
    (parseLine "PRES".toList).bind HostLine.opword = some 0x81 ∧
    parseLine "READ CAL 10".toList = some (.read (.cal 10)) ∧
    parseLine "READ CAL".toList = none ∧ parseLine "PRES.FAST".toList = none := by decide +kernel

/-- A `READ` reads, every other line requests (R101). -/
theorem test_host_input :
    hostInput (.op .temp) = some (.request 0x03) ∧ hostInput .pres = some (.request 0x81) ∧
    hostInput (.read .busy) = some (.read .busy) ∧ hostInput (.op .calAddrC1) = none := by decide

/-! ## Words and numbers (L2.1) -/

theorem test_word_assembly :
    word16 0x00 0x01 = 256 ∧ word16 0x01 0x00 = 1 ∧ word16 0x28 0xA0 = 41000 := by decide

theorem test_signed_words :
    decS16 (word16 0x00 0x80) = -32768 ∧ decS16 (word16 0x18 0xFC) = -1000 ∧
    decCoefficient 1 (word16 0x38 0xFF) = 65336 ∧ decCoefficient 4 (word16 0x38 0xFF) = -200 := by
  decide

/-! ## The temperature datapath (L2.2, L2.3) -/

theorem test_tcomp :
    tcomp 30000 20000 3058 = 2499 ∧ tcomp 30000 20000 (-32768) = -3907 ∧
    tcomp 30000 20000 (-1000) = 1774 ∧ tcomp 1 0 (-1) = -1 ∧ tcomp 100 (-200) 500 = -20 ∧
    tcomp 0 1023 0 = 99 := by decide

theorem test_tdeg :
    tdeg 2499 = 0x4038FD70A3D70A3D ∧ tdeg (-20) = 0xBFC999999999999A ∧ tdeg 0 = 0 := by
  decide +kernel

/-! ## The pressure datapath (L2.4, L2.5) -/

theorem test_round2_ties :
    round2 0x3FC0000000000000 = 0x3FBEB851EB851EB8 ∧
    round2 0x3FD8000000000000 = 0x3FD851EB851EB852 := by decide +kernel

theorem test_round2_signed_zero :
    round2 0x8000000000000000 = 0x8000000000000000 ∧ round2 0 = 0 := by decide +kernel

/-- V2. -/
theorem test_pcomp_setA :
    pcomp 40000 1000 (-200) (-500) 300 (-50) 10 5000 3058 41000 = 0x408F2370A3D70A3D := by
  decide +kernel

/-- V4, a negative zero. -/
theorem test_pcomp_negative_zero : pcomp 0 0 0 1 0 0 0 (-1) 0 0 = 0x8000000000000000 := by
  decide +kernel

/-- V11, which the closed form would give one unit lower in S. -/
theorem test_sensitivity_stepwise :
    ps 65535 65535 0 32767 32740 = 0x40F7FC6499142216 ∧
    pcomp 65535 65535 0 0 0 0 32767 0 32740 0 = 0x40746D47AE147AE1 := by decide +kernel

/-! ## One step of each operation -/

theorem test_init_accepted :
    (next? (step (holding 0x01 State.reset))).map (fun t => (t.phase, t.trace)) =
      some (.initRd 0, [.issued (.busRead 0x77 0x8E 2)]) := by decide

/-- P5: a second INIT. -/
theorem test_init_refused :
    refusal? (step (holding 0x01 loaded)) = some .initWhileCalValid := by decide

/-- P3: TEMP before INIT. -/
theorem test_temp_uninitialized :
    (next? (step (holding 0x03 State.reset))).map (fun t => (t.status, t.rvalid, t.trace)) =
      some (.uninitializedError, false, [.responded .uninitializedError none]) := by decide

/-- A request that arrives in IDLE is held, and the next step accepts it (R36, R282). -/
theorem test_request_arrives_in_idle :
    (next? (step (facing [.request 0x02] loaded))).map (fun t => (t.held, t.phase)) =
      some ([0x02], .idle) := by decide

theorem test_operations_start :
    [0x02, 0x03, 0x80, 0x81, 0x90, 0x91].map
      (fun w => (next? (step (holding w loaded))).map (fun t => (t.phase, t.curop))) =
    [0x02, 0x03, 0x80, 0x81, 0x90, 0x91].map (fun w : Byte => some (Phase.tCmd, .written w)) := by
  decide

/-- P1: TRAW of the raw word 0x8000 ends with -3907. -/
theorem test_traw_ends :
    (next? (step (waiting 0x02 .tRd (.bytes [0x00, 0x80]) loaded))).map
      (fun t => (t.phase, t.tr, t.result)) =
    some (.idle, .written 0x8000, .written 0xFFFFFFFFFFFFF0BD) := by decide

/-- P1: TEMP of 3058 ends with 24.99. -/
theorem test_temp_ends :
    (next? (step (waiting 0x03 .tRd (.bytes [0xF2, 0x0B]) loaded))).map
      (fun t => (t.status, t.rvalid, t.result)) =
    some (.ok, true, .written 0x4038FD70A3D70A3D) := by decide +kernel

/-- P2: PRES.ULTRA of V2 ends with 996.43. -/
theorem test_pres_ends :
    (next? (step (lastRead .ultra (.bytes [0x28, 0xA0])))).map
      (fun t => (t.praw, t.rvalid, t.result)) =
    some (.written 0xA028, true, .written 0x408F2370A3D70A3D) := by decide +kernel

/-- L1.7: the modes' command bytes and their delays. -/
theorem test_mode_commands :
    [Mode.low, .standard, .high, .ultra].map (fun m =>
      (next? (step (waiting (presOpword m) .tRd (.bytes [0xF2, 0x0B]) loaded))).map State.trace) =
    [some [.issued (.busWrite 0x77 0xF1 [0x00])], some [.issued (.busWrite 0x77 0xF1 [0x01])],
     some [.issued (.busWrite 0x77 0xF1 [0x10])], some [.issued (.busWrite 0x77 0xF1 [0x11])]] := by
  decide

theorem test_mode_delays :
    [Mode.low, .standard, .high, .ultra].map (fun m =>
      (next? (exec (modeInstr m) (waiting (presOpword m) .pCmd .ok loaded))).map State.trace) =
    [some [.issued (.sleep 5)], some [.issued (.sleep 20)], some [.issued (.sleep 19)],
     some [.issued (.sleep 67)]] := by decide

theorem test_temperature_command :
    (next? (exec .sensorCmdTemp (waiting 0x03 .tCmd .ok loaded))).map
      (fun t => (t.phase, t.trace)) = some (.tWait, [.issued (.sleep 5)]) := by decide

/-- The ten locations in INIT, each read writing its own word (R155, R158). -/
theorem test_calibration_reads :
    (List.finRange 10).map (fun k => (next? (exec (calInstr k)
      (loadingA k (.bytes [0x38, 0xFF])))).map (fun t => t.calw[k])) =
    List.replicate 10 (some (.written 0xFF38)) := by decide

/-- The tenth read ends INIT. -/
theorem test_last_calibration_read :
    (next? (exec .calAddrC10 (loadingA 9 (.bytes [0x88, 0x13])))).map
      (fun t => (t.calw == wordsA, t.calValid, t.phase, t.status, t.rvalid)) =
    some (true, true, .idle, .ok, false) := by decide

/-- P3: the sixth read of INIT fails. -/
theorem test_failed_init :
    (next? (step (loadingA 5 .failure))).map
      (fun t => (t.calw.toList.map Register.holds, t.calValid, t.status, t.phase)) =
    some (List.replicate 10 false, false, .transportError, .idle) := by decide

/-- L2.7: a transport answer of three bytes, and a request never answered. -/
theorem test_refused_and_stuck :
    refusal? (step (waiting 0x03 .tRd (.bytes [1, 2, 3]) loaded)) = some (.answerLength 3) ∧
    fault? (step { loaded with phase := .tRd, curop := .written 0x03 }) = some .stuck := by decide

/-- P1, P4: `READ CAL 5` gives -200, and `READ RESULT` with RVALID = 0 is refused (L2.7). -/
theorem test_host_reads :
    (next? (step { loaded with inputs := [.read (.cal 5)] })).map State.trace =
      some [.gave (.cal 5) (.coefficient (-200))] ∧
    refusal? (step { loaded with inputs := [.read .result] }) = some .resultNotValid := by decide

/-- A register that nothing has written is read without a fault (log entry 1): the pressure compute with
neither TR nor a calibration word written ends with a result. No run from reset comes here. -/
theorem test_unwritten_register_is_read :
    fault? (step (waiting 0x80 .pRd (.bytes [0, 0]) State.reset)) = none ∧
    (next? (step (waiting 0x80 .pRd (.bytes [0, 0]) State.reset))).map
      (fun t => (t.phase, t.rvalid)) = some (.idle, true) := by decide

/-- A step from reset runs the word that `withFetchWord` places. -/
theorem test_fetched_words_run :
    ((next? (step (State.reset.withFetchWord 8 0x01))).map State.phase = some (.initRd 0)) ∧
    ((next? (step (State.reset.withFetchWord 8 0x10))).map State.phase = some .pWait) ∧
    ((next? (step (State.reset.withFetchWord 8 0x8E))).map State.phase = some (.initRd 1)) := by
  decide

/-! ## Witnesses: states and operands that meet the hypotheses of the statements -/

theorem witness_DecodeAndEncodeAgree :
    decode .hostOp [0x91, 7] = some (.presUltra, [7]) ∧
    decode .sensorCmd [0x00] = some (.sensorCmdLow, []) ∧
    decode .calAddr [0xA0] = some (.calAddrC10, []) := by decide

theorem witness_ReservedOpwordIsRefused :
    ∀ w ∈ [0x00#8, 0xFF#8], (holding w loaded).phase = .idle ∧ (holding w loaded).held = [w] ∧
      decodeByte .hostOp w = none := by decide

theorem witness_PresOpwordCarriesTheModeByte :
    opwordMode 0x80 = some .low ∧ opwordMode 0x91 = some .ultra := by decide

theorem witness_CoefficientsDecodeByNumber :
    (0 : Fin 10).val < 4 ∧ (3 : Fin 10).val < 4 ∧ 4 ≤ (4 : Fin 10).val ∧ 4 ≤ (9 : Fin 10).val := by
  decide

/-- Operands 2^1022 and 2^1022, whose sum reaches the bound, and 2^1022 with 2, whose product does; a
quotient, and a difference. -/
theorem witness_FloatOperationsAreCorrectlyRounded :
    F64.isFinite 0x7FD0000000000000 = true ∧ F64.isFinite 0x4000000000000000 = true ∧
    |F64.exact 0x7FD0000000000000 + F64.exact 0x7FD0000000000000| ≤ pow2 1023 ∧
    |F64.exact 0x7FD0000000000000 - F64.exact 0x4000000000000000| ≤ pow2 1023 ∧
    |F64.exact 0x7FD0000000000000 * F64.exact 0x4000000000000000| ≤ pow2 1023 ∧
    F64.exact 0x4000000000000000 ≠ 0 ∧
    |F64.exact 0x7FD0000000000000 / F64.exact 0x4000000000000000| ≤ pow2 1023 := by
  decide +kernel

theorem witness_IntegerConversionIsExact :
    (-(2 ^ 53) : Int) ≤ -(2 ^ 53) ∧ (-(2 ^ 53) : Int) ≤ 2 ^ 53 ∧ ((2 ^ 53 : Int)) ≤ 2 ^ 53 := by
  decide

/-- A zero; and the smallest exponent that k = 46 allows. -/
theorem witness_PowerOfTwoDivisionIsExact :
    (F64.isFinite 0x8000000000000000 = true ∧ F64.exact 0x8000000000000000 = 0) ∧
    (F64.isFinite 0x02F0000000000001 = true ∧ 46 < F64.expField 0x02F0000000000001) := by
  decide +kernel

/-- 1.5 and -1.5. -/
theorem witness_SignsOfZerosAndProducts :
    F64.isFinite 0x3FF8000000000000 = true ∧ F64.isFinite 0xBFF8000000000000 = true ∧
    F64.sign 0x3FF8000000000000 ≠ F64.sign 0xBFF8000000000000 ∧
    F64.exact 0x3FF8000000000000 + F64.exact 0xBFF8000000000000 = 0 ∧
    |F64.exact 0x3FF8000000000000 * F64.exact 0xBFF8000000000000| ≤ pow2 1023 ∧
    F64.exact 0xBFF8000000000000 ≠ 0 ∧
    |F64.exact 0x3FF8000000000000 / F64.exact 0xBFF8000000000000| ≤ pow2 1023 := by
  decide +kernel

/-- -0 and -0.001. -/
theorem witness_RoundingKeepsTheSignOfZero :
    (F64.isFinite 0x8000000000000000 = true ∧ rhe (100 * F64.exact 0x8000000000000000) = 0) ∧
    (F64.isFinite 0xBF50624DD2F1A9FC = true ∧ rhe (100 * F64.exact 0xBF50624DD2F1A9FC) = 0) := by
  decide +kernel

/-- 2^1000, the bound itself. -/
theorem witness_RoundingToTwoPlaces :
    F64.isFinite 0x7E70000000000000 = true ∧ |F64.exact 0x7E70000000000000| ≤ pow2 1000 := by
  decide +kernel

theorem witness_HundredthsToDegrees : (-(2 ^ 53) : Int) ≤ 2 ^ 53 ∧ ((2 ^ 53 : Int)) ≤ 2 ^ 53 := by
  decide

theorem witness_ReceivedWordsAreLittleEndian :
    (∃ t, (loadingA 9 (.bytes [1, 2])).phase = .initRd 9 ∧
      (loadingA 9 (.bytes [1, 2])).inputs = [.answer (.bytes [1, 2])] ∧
      step (loadingA 9 (.bytes [1, 2])) = .next t) ∧
    (∃ t, (waiting 0x02 .tRd (.bytes [1, 2]) loaded).phase = .tRd ∧
      step (waiting 0x02 .tRd (.bytes [1, 2]) loaded) = .next t) ∧
    ((lastRead .low (.bytes [1, 2])).phase = .pRd ∧
      (next? (step (lastRead .low (.bytes [1, 2])))).isSome = true) :=
  ⟨⟨_, rfl, rfl, rfl⟩, ⟨_, rfl, rfl⟩, rfl, by decide⟩

theorem witness_DefaultModeIsStandard :
    parseLine "PRES".toList = some .pres ∧ HostLine.opword .pres = some 0x81 ∧
    parseLine " TEMP ; degrees".toList = some (.op .temp) ∧
    HostLine.opword (.op .temp) = some 0x03 := by decide +kernel

/-- The extreme inputs of V6 and V7: for PressureDatapathStaysFinite, PressureDatapathNeverUnderflows,
PressureTermsAreNeverNegativeZero and NonzeroPressureValuesAreAtLeastTwoToMinus46. -/
theorem witness_pressure_inputs :
    isU16 0 ∧ isU16 65535 ∧ isS16 (-32768) ∧ isS16 32767 ∧
    pressureValues 0 0 0 0 0 0 0 0 0 0 ≠ [] := by
  refine ⟨?_, ?_, ?_, ?_, List.cons_ne_nil _ _⟩ <;> constructor <;> decide

theorem witness_StepRunsTheDecodedInstruction :
    ((holding 0x91 loaded).phase = .idle ∧ (holding 0x91 loaded).held = [0x91] ∧
      decodeByte .hostOp 0x91 = some .presUltra) ∧
    ((waiting 0x91 .pCmd .ok loaded).inputs = [.answer .ok] ∧
      (waiting 0x91 .pCmd .ok loaded).emitted = some .sensorCmdUltra) := by decide

/-- For InitIsAccepted and UninitializedBeforeAnyRequest. -/
theorem witness_uncalibrated :
    State.reset.phase = .idle ∧ State.reset.calValid = false ∧ Instr.presUltra.format = .hostOp ∧
    Instr.presUltra ≠ .init := by decide

/-- For ConversionIsAccepted and SecondInitIsRefused. -/
theorem witness_calibrated :
    loaded.phase = .idle ∧ loaded.calValid = true ∧ Instr.traw.format = .hostOp ∧
    Instr.traw ≠ .init := by decide

/-- An arrival while busy, an arrival in IDLE with nothing held, and an acceptance. -/
theorem witness_RequestIsHeldWhileBusy :
    Instr.init.format = .hostOp ∧
    (waiting 0x02 .tWait .slept loaded).phase ≠ .idle ∧
    ((facing [.request 0x02] loaded).phase = .idle ∧ (facing [.request 0x02] loaded).held = [] ∧
      (facing [.request 0x02] loaded).inputs = [.request 0x02]) ∧
    (facing [.request 0xFF] (waiting 0x02 .tWait .slept loaded)).inputs = [.request 0xFF] ∧
    (holding 0x01 loaded).phase = .idle ∧ decodeByte .hostOp 0x01 = some .init := by decide

/-- The first read and the last. -/
theorem witness_CalibrationReadsComplete :
    ∀ k ∈ [(0 : Fin 10), 9], (loadingA k (.bytes [0, 0xFF])).phase = .initRd k ∧
      (loadingA k (.bytes [0, 0xFF])).inputs = [.answer (.bytes [0, 0xFF])] := by decide

theorem witness_CommandWritesComplete :
    ((waiting 0x02 .tCmd .ok loaded).phase = .tCmd ∧
      (waiting 0x02 .tCmd .ok loaded).inputs = [.answer .ok]) ∧
    (∀ m ∈ [Mode.low, .standard, .high, .ultra],
      (waiting (presOpword m) .pCmd .ok loaded).phase = .pCmd ∧
      (waiting (presOpword m) .pCmd .ok loaded).curop.value = presOpword m ∧
      (waiting (presOpword m) .pCmd .ok loaded).inputs = [.answer .ok]) := by decide

theorem witness_DelayIsFollowedByTheDataRead :
    ((waiting 0x02 .tWait .slept loaded).phase = .tWait ∧
      (waiting 0x02 .tWait .slept loaded).inputs = [.answer .slept]) ∧
    ((waiting 0x80 .pWait .slept loaded).phase = .pWait ∧
      (waiting 0x80 .pWait .slept loaded).curop.value = presOpword .low ∧
      (waiting 0x80 .pWait .slept loaded).inputs = [.answer .slept]) := by decide

/-- For TemperatureOperationsEnd and PressureConversionStarts. -/
theorem witness_temperature_read :
    ∀ w ∈ [0x02#8, 0x03#8, presOpword .high],
      (waiting w .tRd (.bytes [0, 0x80]) loaded).phase = .tRd ∧
      (waiting w .tRd (.bytes [0, 0x80]) loaded).curop.value = w ∧
      (waiting w .tRd (.bytes [0, 0x80]) loaded).inputs = [.answer (.bytes [0, 0x80])] := by decide

theorem witness_PressureOperationsEnd :
    (lastRead .low (.bytes [0xFF, 0xFF])).phase = .pRd ∧
    (lastRead .low (.bytes [0xFF, 0xFF])).curop.value = presOpword .low ∧
    (lastRead .low (.bytes [0xFF, 0xFF])).inputs = [.answer (.bytes [0xFF, 0xFF])] := by decide

theorem witness_TransportFailureEndsTheOperation :
    (loadingA 9 .failure).phase = .initRd 9 ∧ (loadingA 9 .failure).inputs = [.answer .failure] ∧
    (∀ p ∈ [Phase.tCmd, .tRd, .pRd], (waiting 0x81 p .failure loaded).phase = p ∧
      (waiting 0x81 p .failure loaded).inputs = [.answer .failure]) ∧
    (waiting 0x81 .pCmd .failure loaded).curop.value = presOpword .standard ∧
    (waiting 0x81 .pCmd .failure loaded).phase = .pCmd := by decide

theorem witness_RefusedInputs :
    ((holding 0x11 loaded).phase = .idle ∧ decodeByte .hostOp 0x11 = none) ∧
    ((holding 0x01 loaded).held = [0x01] ∧ (holding 0x01 loaded).calValid = true) ∧
    ((facing [.read .result] loaded).held = [] ∧ (facing [.read .result] loaded).rvalid = false) ∧
    ((facing [.read (.cal 0)] loaded).inputs = [.read (.cal 0)] ∧ 0 < 1) ∧
    ((facing [.read (.cal 11)] loaded).inputs = [.read (.cal 11)] ∧ 10 < 11) ∧
    ((facing [.read (.cal 1)] State.reset).calValid = false) ∧
    ((facing [.lateAnswer] loaded).inputs = [.lateAnswer] ∧
      (facing [.lateAnswer] loaded).abandoned = 0) ∧
    ((waiting 0x02 .tWait .failure loaded).outstanding = some (.sleep 5) ∧
      Answer.fits (.sleep 5) .failure = false) ∧
    ((waiting 0x02 .tRd (.bytes [1]) loaded).outstanding = some (.busRead 0x77 0xF5 2) ∧
      Answer.fits (.busRead 0x77 0xF5 2) (.bytes [1]) = false) ∧
    ((facing [.answer .ok] loaded).phase = .idle ∧ (facing [.answer .ok] loaded).held = []) := by
  decide

theorem witness_UnansweredRequestIsStuck :
    ((facing [] (waiting 0x02 .tWait .slept loaded)).inputs = [] ∧
      (facing [] (waiting 0x02 .tWait .slept loaded)).phase ≠ .idle) ∧
    (State.reset.inputs = [] ∧ State.reset.phase = .idle ∧ State.reset.held = []) := by decide

theorem witness_HostReadsHaveNoSideEffects :
    ({ loaded with rvalid := true, result := .written 0 } : State).rvalid = true ∧
    loaded.calValid = true ∧
    ((facing [.read .busy] loaded).held = [] ∧
      (facing [.read .busy] loaded).inputs = [.read .busy] ∧
      ∃ v, readPort .busy (facing [.read .busy] loaded) = .next v) := by
  exact ⟨rfl, rfl, rfl, rfl, _, rfl⟩

theorem witness_ResetAbandonsTheOperation :
    ((facing [.reset] (lastRead .low .ok)).phase ≠ .idle ∧
      (facing [.reset] (lastRead .low .ok)).inputs = [.reset]) ∧
    ((facing [.reset] loaded).held = [] ∧ (facing [.reset] loaded).inputs = [.reset]) ∧
    (0 < ({ facing [.lateAnswer] loaded with abandoned := 1 } : State).abandoned) := by decide

/-- For InitLoadsTheCalibration, and for FailedInitLeavesNoCalibration with the first read failing and with
the last. -/
theorem witness_init_runs :
    let bytes : Fin 10 → Byte × Byte := fun k => (0xFF, BitVec.ofNat 8 k.val)
    let load := facing (calibrationAnswers bytes 10) (holding 0x01 State.reset)
    (load.phase = .idle ∧ load.calValid = false ∧ load.held = [0x01] ∧
      load.inputs = calibrationAnswers bytes 10 ++ []) ∧
    (∀ j ∈ [(0 : Fin 10), 9],
      (facing (calibrationAnswers bytes j.val ++ .answer .failure :: []) load).inputs =
        calibrationAnswers bytes j.val ++ .answer .failure :: []) := by decide

/-- For TemperatureOperationsRun and PressureOperationsRun. -/
theorem witness_conversion_runs :
    (∀ w ∈ [0x02#8, 0x03#8, presOpword .low, presOpword .ultra],
      (holding w loaded).phase = .idle ∧ (holding w loaded).calValid = true ∧
      (holding w loaded).held = [w]) ∧
    (facing ([.answer .ok, .answer .slept, .answer (.bytes [0, 0])] ++ []) loaded).inputs =
      [.answer .ok, .answer .slept, .answer (.bytes [0, 0])] ++ [] := by decide

theorem witness_ModeDoesNotChangeTheResult :
    ∃ t, (lastRead .low .failure).phase = .pRd ∧
      (lastRead .low .failure).curop.value = presOpword .low ∧
      (lastRead .low .failure).inputs = [.answer .failure] ∧
      step (lastRead .low .failure) = .next t := ⟨_, rfl, rfl, rfl, rfl⟩

/-- The same with the answer that ends the operation: its next state exists. -/
theorem witness_mode_with_result :
    (next? (step (lastRead .low (.bytes [0x28, 0xA0])))).isSome = true := by decide

theorem witness_PressureIgnoresC1AndC2 :
    ∀ p ∈ [(Phase.pCmd, Answer.ok), (.pWait, .slept), (.pRd, .bytes [0, 0])],
      p.1.isPressure = true ∧
      (next? (step { waiting 0x91 p.1 p.2 loaded with tr := .written 0 })).isSome = true := by
  decide

/-! ### States of the invariant -/

/-- The invariant holds of an engine that waits for the pressure sample. -/
theorem inv_lastRead (m : Mode) (a : Answer) : Inv (lastRead m a) := by
  have words : ∀ k : Fin 10, wordsA[k].holds = true := by decide
  have hasPRd : hasPhase (.written (presOpword m)) .pRd = true := by cases m <;> decide
  exact ⟨fun _ => words, nofun, nofun, fun _ => rfl, hasPRd, fun _ => rfl, rfl, fun _ => rfl,
    nofun⟩

/-- The invariant holds of an engine that waits for a calibration word. -/
theorem inv_loadingA (k : Fin 10) (a : Answer) : Inv (loadingA k a) := by
  have words : ∀ k j : Fin 10,
      (Vector.ofFn (fun j => if j < k then wordsA[j] else .atReset))[j].holds = decide (j < k) := by
    decide
  refine ⟨nofun, nofun, ?_, nofun, rfl, nofun, rfl, fun _ => rfl, nofun⟩
  intro l hl
  obtain rfl : k = l := by simpa [loadingA, waiting] using hl
  exact ⟨rfl, words k⟩

/-- For StepKeepsTheInvariant, CalibrationIsImmutable (CAL_VALID = 1) and the statements about a step that
need no invariant. -/
theorem witness_StepKeepsTheInvariant :
    ∃ t, Inv (lastRead .high .failure) ∧ step (lastRead .high .failure) = .next t ∧
      (lastRead .high .failure).inputs.head? ≠ some .reset ∧
      (lastRead .high .failure).calValid = true :=
  ⟨_, inv_lastRead _ _, rfl, by decide, rfl⟩

/-- For both clauses of OnlyAWaitingEngineFaults: PRAW holds no value in this state. -/
theorem witness_OnlyAWaitingEngineFaults :
    (lastRead .high .ok).praw.holds = false ∧
    ∃ f, Inv (facing [] (lastRead .high .ok)) ∧ step (facing [] (lastRead .high .ok)) = .fault f := by
  refine ⟨rfl, _, ?_, rfl⟩
  obtain ⟨i1, i2, i3, i4, i5, i6, i7, i8, i9⟩ := inv_lastRead .high .ok
  exact ⟨i1, i2, i3, i4, i5, i6, i7, i8, i9⟩

/-- A request held in IDLE is accepted although a reset is to come: the other side of the premise of
CalibrationIsImmutable and LatchesAreWrittenInTheirPhases. -/
theorem witness_acceptance_before_reset :
    ∃ t, Inv (facing [.reset] (holding 0x02 loaded)) ∧
      step (facing [.reset] (holding 0x02 loaded)) = .next t ∧
      (facing [.reset] (holding 0x02 loaded)).phase = .idle ∧
      (facing [.reset] (holding 0x02 loaded)).held ≠ [] ∧
      (facing [.reset] (holding 0x02 loaded)).calValid = true ∧
      t.curop ≠ (facing [.reset] (holding 0x02 loaded)).curop := by
  have words : ∀ k : Fin 10, wordsA[k].holds = true := by decide
  exact ⟨_, ⟨fun _ => words, nofun, nofun, nofun, rfl, nofun, rfl, nofun, nofun⟩, rfl, rfl,
    by decide, rfl, by decide⟩

/-- A calibration word is written while CAL_VALID = 0. -/
theorem witness_CalibrationIsImmutable :
    ∃ t, Inv (loadingA 0 (.bytes [1, 2])) ∧ step (loadingA 0 (.bytes [1, 2])) = .next t ∧
      (loadingA 0 (.bytes [1, 2])).inputs.head? ≠ some .reset ∧
      (loadingA 0 (.bytes [1, 2])).calValid = false ∧ t.calw ≠ (loadingA 0 (.bytes [1, 2])).calw :=
  ⟨_, inv_loadingA _ _, rfl, by decide, rfl, by decide⟩

/-- The tenth word sets CAL_VALID, and a reset clears it. -/
theorem witness_CalValidIsSetOnlyByInit :
    (∃ t, Inv (loadingA 9 (.bytes [1, 2])) ∧ step (loadingA 9 (.bytes [1, 2])) = .next t ∧
      (loadingA 9 (.bytes [1, 2])).calValid = false ∧ t.calValid = true) ∧
    (∃ t, Inv (facing [.reset] (lastRead .low .ok)) ∧
      step (facing [.reset] (lastRead .low .ok)) = .next t ∧
      (facing [.reset] (lastRead .low .ok)).calValid = true ∧ t.calValid = false) := by
  refine ⟨⟨_, inv_loadingA _ _, rfl, rfl, rfl⟩, _, ?_, rfl, rfl, rfl⟩
  obtain ⟨i1, i2, i3, i4, i5, i6, i7, i8, i9⟩ := inv_lastRead .low .ok
  exact ⟨i1, i2, i3, i4, i5, i6, i7, i8, i9⟩

/-- PRES goes from T_RD to P_CMD: for PhaseFollowsItsOperation, OneRequestIsOutstanding and the temperature
clause of LatchesAreWrittenInTheirPhases. -/
theorem witness_phase_changes :
    ∃ t, step (waiting 0x90 .tRd (.bytes [0, 0]) loaded) = .next t ∧ t.phase = .pCmd ∧
      t.phase ≠ (waiting 0x90 .tRd (.bytes [0, 0]) loaded).phase ∧
      t.tr ≠ (waiting 0x90 .tRd (.bytes [0, 0]) loaded).tr ∧
      (waiting 0x90 .tRd (.bytes [0, 0]) loaded).inputs.head? ≠ some .reset :=
  ⟨_, rfl, rfl, by decide, by decide, by decide⟩

/-- A step that stays in its phase and one that ends in IDLE. -/
theorem witness_OneRequestIsOutstanding :
    (∃ t, step (facing [.read .busy] (lastRead .low .ok)) = .next t ∧
      t.phase = (facing [.read .busy] (lastRead .low .ok)).phase) ∧
    (∃ t, step (loadingA 9 .failure) = .next t ∧ t.phase = .idle) :=
  ⟨⟨_, rfl, rfl⟩, _, rfl, rfl⟩

/-- A response, with an input that is no reset, and an acceptance with a reset to come: for
ResponsesWriteStatusAndResult, OnlyTheListedRequestsAreIssued and HeldRequestsAreNotLost. -/
theorem witness_ResponsesWriteStatusAndResult :
    (∃ t, step (loadingA 2 .failure) = .next t ∧
      (loadingA 2 .failure).inputs.head? ≠ some .reset ∧ t.status = .transportError) ∧
    (∃ t, step (facing [.reset] (holding 0x02 loaded)) = .next t ∧
      (facing [.reset] (holding 0x02 loaded)).phase = .idle ∧
      (facing [.reset] (holding 0x02 loaded)).held ≠ [] ∧
      t.held ≠ (facing [.reset] (holding 0x02 loaded)).held) :=
  ⟨⟨_, rfl, by decide, rfl⟩, _, rfl, rfl, by decide, by decide⟩

theorem witness_OnlyTheListedRequestsAreIssued :
    Request.busWrite 0x77 0xF1 [0x11] ∈ allowedRequests ∧
    Request.busRead 0x77 0xA0 2 ∈ allowedRequests := by decide

theorem witness_DataReadWaitsForTheDelay :
    (∃ t, step (waiting 0x02 .tWait .slept loaded) = .next t ∧ t.phase = .tRd ∧
      t.phase ≠ (waiting 0x02 .tWait .slept loaded).phase) ∧
    (∃ t, step (waiting 0x91 .pWait .slept loaded) = .next t ∧ t.phase = .pRd ∧
      t.phase ≠ (waiting 0x91 .pWait .slept loaded).phase) :=
  ⟨⟨_, rfl, rfl, by decide⟩, _, rfl, rfl, by decide⟩

/-- CUROP changes at an acceptance, PRAW at the pressure read. -/
theorem witness_LatchesAreWrittenInTheirPhases :
    (∃ t, step (holding 0x02 loaded) = .next t ∧ t.curop ≠ (holding 0x02 loaded).curop ∧
      (holding 0x02 loaded).inputs.head? ≠ some .reset) ∧
    ((next? (step (lastRead .low (.bytes [5, 0])))).map State.praw = some (.written 5) ∧
      (lastRead .low (.bytes [5, 0])).praw = .atReset) :=
  ⟨⟨_, rfl, by decide, by decide⟩, by decide⟩

/-- A request that fits is answered in a state of the invariant, with success and with a failure. -/
theorem witness_FittingAnswersEndTheOperation :
    ∀ a ∈ [Answer.bytes [0, 0], .failure],
      Inv (loadingA 9 a) ∧ (loadingA 9 a).outstanding = some (.busRead 0x77 0xA0 2) ∧
      (loadingA 9 a).inputs = [.answer a] ∧ a.fits (.busRead 0x77 0xA0 2) = true := by
  intro a ha
  refine ⟨inv_loadingA _ _, rfl, rfl, ?_⟩
  revert a
  decide

end Sys2Proof.Tests
end

/-! PROOFS. What a step does to STATUS, RVALID and RESULT: it delivers one response, or none. -/

namespace Sys2Proof.Machine

open Sys2Proof

variable {s t u : State}

@[simp] theorem responsesOf_map_issued (l : List Request) :
    responsesOf (l.map Event.issued) = [] := by
  simp [responsesOf, Event.response?, Function.comp_def]

/-- From s to t either no response is delivered, STATUS stays and a result stays or is dropped in IDLE;
or exactly one response is delivered and the engine holds it in IDLE (R17, R40, R41). -/
def RespondsAtMostOnce (s t : State) : Prop :=
  ∃ new : List Event, t.trace = s.trace ++ new ∧
    ((responsesOf new = [] ∧ t.status = s.status ∧
        ((t.rvalid = s.rvalid ∧ t.result = s.result) ∨
          (s.phase = .idle ∧ t.rvalid = false ∧ t.result = s.lostResult))) ∨
      ∃ st v, responsesOf new = [(st, v)] ∧ requestsOf new = [] ∧ t.status = st ∧
        t.result = s.resultAfter v ∧ t.rvalid = v.isSome ∧ t.phase = .idle)

/-- Entering a phase delivers no response (R35). -/
theorem respondsAtMostOnce_enter (p : Phase) (ht : u.trace = s.trace) (hs : u.status = s.status)
    (hr : (u.rvalid = s.rvalid ∧ u.result = s.result) ∨
      (s.phase = .idle ∧ u.rvalid = false ∧ u.result = s.lostResult)) :
    RespondsAtMostOnce s (enter p u) :=
  ⟨_, by rw [enter_trace, ht], .inl ⟨responsesOf_map_issued _, hs, hr⟩⟩

/-- Delivering a response delivers exactly that one (R17). -/
theorem respondsAtMostOnce_respond (st : Status) (v : Option (BitVec 64)) (ht : u.trace = s.trace) :
    RespondsAtMostOnce s (respond st v u) := by
  have hv : u.resultAfter v = s.resultAfter v := by
    cases v
    · exact lostResult_congr ht
    · rfl
  exact ⟨[.responded st v], by rw [respond_trace, ht],
    .inr ⟨st, v, rfl, rfl, rfl, hv, rfl, rfl⟩⟩

/-- An error is delivered as one response (R254). -/
theorem respondsAtMostOnce_raise (e : ErrorKind) (ht : u.trace = s.trace) :
    RespondsAtMostOnce s (raise e u) := by
  unfold raise
  split
  · exact respondsAtMostOnce_respond _ _ ht
  · exact respondsAtMostOnce_respond _ _ ht

/-- After a calibration word the next read is issued, or the operation ends (R155). -/
theorem respondsAtMostOnce_afterCalibrationWord (k : Fin 10) (ht : u.trace = s.trace)
    (hs : u.status = s.status) (hv : u.rvalid = s.rvalid) (hr : u.result = s.result) :
    RespondsAtMostOnce s (afterCalibrationWord k u) := by
  unfold afterCalibrationWord
  split
  · exact respondsAtMostOnce_enter _ ht hs (.inl ⟨hv, hr⟩)
  · exact respondsAtMostOnce_respond _ _ ht

/-- What leaves the trace and the three registers as they are delivers no response. -/
theorem respondsAtMostOnce_of_unchanged (ht : t.trace = s.trace) (hs : t.status = s.status)
    (hv : t.rvalid = s.rvalid) (hr : t.result = s.result) : RespondsAtMostOnce s t :=
  ⟨[], by simp [ht], .inl ⟨rfl, hs, .inl ⟨hv, hr⟩⟩⟩

/-- Every transition but a reset delivers at most one response. -/
theorem respondsAtMostOnce_of_transition (h : Transition s t)
    (hreset : s.inputs.head? ≠ some .reset ∨ (s.phase = .idle ∧ s.held ≠ [])) :
    RespondsAtMostOnce s t := by
  cases h with
  | initAccepted rest hp | conversionAccepted w rest hp =>
    exact respondsAtMostOnce_enter _ rfl rfl (.inr ⟨hp, rfl, rfl⟩)
  | uninitialized => exact respondsAtMostOnce_raise _ rfl
  | calibrationWord k => exact respondsAtMostOnce_afterCalibrationWord k rfl rfl rfl rfl
  | failed => exact respondsAtMostOnce_raise _ rfl
  | temperatureCommand | pressureCommand | temperatureDelayDone | pressureDelayDone
  | pressureStarts => exact respondsAtMostOnce_enter _ rfl rfl (.inl ⟨rfl, rfl⟩)
  | temperatureEnds | pressureEnds => exact respondsAtMostOnce_respond _ _ rfl
  | requestArrives | lateAnswerDropped | rests =>
    exact respondsAtMostOnce_of_unchanged rfl rfl rfl rfl
  | portRead r v => exact ⟨[.gave r v], rfl, .inl ⟨rfl, rfl, .inl ⟨rfl, rfl⟩⟩⟩
  | resetTaken rest hp hi =>
    rcases hreset with hr | ⟨hidle, hheld⟩
    · exact absurd (by rw [hi]; rfl) hr
    · rcases hp with hp | hp
      · exact absurd hidle hp
      · exact absurd hp hheld

/-- Settles O54: every transition but a reset delivers at most one response. -/
theorem responsesWriteStatusAndResult : Obligations.ResponsesWriteStatusAndResult := by
  intro s t h hreset
  exact respondsAtMostOnce_of_transition (step_transition h) hreset

end Sys2Proof.Machine

/-! PROOFS. The value `fl` gives is the binary64 value nearest its argument, ties to even (R14, R126). -/

namespace Sys2Proof.Machine

open Sys2Proof

/-! ## `RHE` on ties -/

/-- Where another integer is as near to q as `RHE(q)`, `RHE(q)` is even: the two are at least 1 apart,
so q is halfway (R134). -/
theorem rhe_even_of_tie {q : Rat} {n : Int} (hne : n ≠ rhe q)
    (h : |(rhe q : Rat) - q| = |(n : Rat) - q|) : rhe q % 2 = 0 := by
  have hapart : (1 : Rat) ≤ |(rhe q : Rat) - n| := by
    have : 1 ≤ |rhe q - n| := Int.one_le_abs (sub_ne_zero.mpr hne.symm)
    exact_mod_cast this
  have htri : |(rhe q : Rat) - n| ≤ |(rhe q : Rat) - q| + |(n : Rat) - q| := by
    rw [abs_sub_comm (n : Rat) q]
    exact abs_sub_le _ _ _
  exact rhe_even_of_half (le_antisymm (abs_rhe_sub_le q) (by linarith))

/-! ## The values of the finite patterns -/

/-- A rational with at most 53 significant bits, the last of them in no place below that of the
subnormals (R124). -/
def IsBinary64Value (v : Rat) : Prop :=
  ∃ n e : Int, |n| < 2 ^ 53 ∧ -1074 ≤ e ∧ v = n * pow2 e

theorem IsBinary64Value.neg {v : Rat} (h : IsBinary64Value v) : IsBinary64Value (-v) := by
  obtain ⟨n, e, hn, he, rfl⟩ := h
  exact ⟨-n, e, by rwa [abs_neg], he, by push_cast; ring⟩

theorem significand_lt (x : F64) : F64.significand x < 2 ^ 53 := by
  have : F64.fraction x < 2 ^ 52 := Nat.mod_lt _ (by norm_num)
  unfold F64.significand
  split <;> omega

theorem isBinary64Value_exact (x : F64) : IsBinary64Value (F64.exact x) := by
  have hlt := significand_lt x
  refine ⟨(if F64.sign x then -1 else 1) * (F64.significand x : Int), F64.scale x, ?_, ?_, ?_⟩
  · rw [abs_mul]
    split <;> simp <;> omega
  · unfold F64.scale
    omega
  · unfold F64.exact
    push_cast
    rfl

/-- A value whose last place is not below l is a multiple of 2^l. -/
theorem mul_pow2_of_le (n : Int) {l e : Int} (h : l ≤ e) :
    ∃ k : Int, (n : Rat) * pow2 e = k * pow2 l := by
  refine ⟨n * 2 ^ (e - l).toNat, ?_⟩
  have he : e = ((e - l).toNat : Int) + l := by omega
  conv_lhs => rw [he, pow2_add, pow2_natCast]
  push_cast
  ring

/-- A value whose last place is below l is below 2^(52 + l). -/
theorem mul_pow2_lt {n l e : Int} (hn : |n| < 2 ^ 53) (h : e < l) :
    (n : Rat) * pow2 e < pow2 (52 + l) := by
  have h53 : pow2 53 = 2 ^ 53 := by norm_num [pow2_eq_zpow]
  have hlt : (n : Rat) < pow2 53 := by
    rw [h53]
    exact_mod_cast (abs_lt.mp hn).2
  calc (n : Rat) * pow2 e < pow2 53 * pow2 e := mul_lt_mul_of_pos_right hlt (pow2_pos e)
    _ = pow2 (53 + e) := (pow2_add _ _).symm
    _ ≤ pow2 (52 + l) := pow2_le (by omega)

/-! ## Rounding to the last place -/

/-- The rational q rounded to its last place (R126). -/
def roundToPlace (q : Rat) : Rat := rhe (q / pow2 (lastPlace q)) * pow2 (lastPlace q)

/-- The distance from q to a multiple of its last place, in units of the last place. -/
theorem abs_mul_lastPlace_sub (n : Int) (q : Rat) :
    |n * pow2 (lastPlace q) - q| = |(n : Rat) - q / pow2 (lastPlace q)| * pow2 (lastPlace q) := by
  have hp := pow2_pos (lastPlace q)
  rw [← abs_of_pos hp, ← abs_mul, abs_of_pos hp, sub_mul, div_mul_cancel₀ _ hp.ne']

/-- No multiple of the last place is nearer to q than q rounded to it. -/
theorem roundToPlace_nearest_multiple (q : Rat) (n : Int) :
    |roundToPlace q - q| ≤ |n * pow2 (lastPlace q) - q| := by
  unfold roundToPlace
  rw [abs_mul_lastPlace_sub, abs_mul_lastPlace_sub]
  exact mul_le_mul_of_nonneg_right (rhe_nearest _ n) (pow2_pos _).le

/-- A binary64 value finer than the last place of q is farther from q than q rounded: it lies below
2^(52 + l), which is a multiple of the last place 2^l and at most q. -/
theorem roundToPlace_lt_of_finer {q : Rat} (hq : 0 < q) {n e : Int} (hn : |n| < 2 ^ 53)
    (he : -1074 ≤ e) (h : e < lastPlace q) : |roundToPlace q - q| < |n * pow2 e - q| := by
  have hbelow := mul_pow2_lt hn h
  have hq' : pow2 (52 + lastPlace q) ≤ q := by
    have hl : floorLog2 q = 52 + lastPlace q := by unfold lastPlace at h ⊢; omega
    exact hl ▸ (floorLog2_spec hq).1
  have hmul : ((2 ^ 52 : Int) : Rat) * pow2 (lastPlace q) = pow2 (52 + lastPlace q) := by
    rw [pow2_add]
    norm_num [pow2_eq_zpow]
  calc |roundToPlace q - q| ≤ |((2 ^ 52 : Int) : Rat) * pow2 (lastPlace q) - q| :=
        roundToPlace_nearest_multiple q _
    _ = q - pow2 (52 + lastPlace q) := by rw [hmul, abs_of_nonpos (by linarith)]; ring
    _ < q - n * pow2 e := by linarith
    _ = |n * pow2 e - q| := by rw [abs_of_nonpos (by linarith)]; ring

/-- No binary64 value is nearer to q than q rounded to its last place, and one equally near is only there
when the rounded significand is even. -/
theorem roundToPlace_nearest {q v : Rat} (hq : 0 < q) (hv : IsBinary64Value v) :
    |roundToPlace q - q| ≤ |v - q| ∧
      (v ≠ roundToPlace q → |roundToPlace q - q| = |v - q| →
        rhe (q / pow2 (lastPlace q)) % 2 = 0) := by
  obtain ⟨n, e, hn, he, rfl⟩ := hv
  rcases lt_or_ge e (lastPlace q) with h | h
  · have hlt := roundToPlace_lt_of_finer hq hn he h
    exact ⟨hlt.le, fun _ heq => absurd heq hlt.ne⟩
  · obtain ⟨k, hk⟩ := mul_pow2_of_le n h
    rw [hk]
    refine ⟨roundToPlace_nearest_multiple q k, fun hne heq => ?_⟩
    have hkne : k ≠ rhe (q / pow2 (lastPlace q)) := fun hc => hne (by rw [hc, roundToPlace])
    rw [roundToPlace, abs_mul_lastPlace_sub, abs_mul_lastPlace_sub] at heq
    exact rhe_even_of_tie hkne (mul_right_cancel₀ (pow2_pos _).ne' heq)

/-! ## `fl` -/

/-- The significand is even when the pattern is. -/
theorem significand_mod_two (x : F64) : F64.significand x % 2 = x.toNat % 2 := by
  unfold F64.significand F64.fraction
  split <;> omega

/-- The pattern of a positive rational is even when its rounded significand is. -/
theorem flMagnitude_mod_two {q : Rat} (hq : 0 < q)
    (h : rhe (q / pow2 (lastPlace q)) % 2 = 0) : flMagnitude q % 2 = 0 := by
  obtain ⟨h0, -, -⟩ := significand_bounds hq
  unfold flMagnitude
  rw [if_neg hq.ne']
  omega

theorem toNat_ofNat_mod_two (neg : Bool) (m : Nat) :
    (BitVec.ofNat 64 ((if neg then 2 ^ 63 else 0) + m)).toNat % 2 = m % 2 := by
  rw [BitVec.toNat_ofNat]
  split <;> omega

/-- The significand of what `fl` answers is even when that of the rounded magnitude is. -/
theorem significand_fl_mod_two {zeroSign : Bool} {q : Rat} {x : F64} (hx : fl zeroSign q = some x)
    (h : flMagnitude |q| % 2 = 0) : F64.significand x % 2 = 0 := by
  unfold fl at hx
  simp only [Option.ite_none_right_eq_some, Option.some.injEq] at hx
  obtain ⟨-, rfl⟩ := hx
  rw [significand_mod_two, toNat_ofNat_mod_two, h]

/-- The value of what `fl` answers for a rational that is not zero. -/
theorem exact_fl {zeroSign : Bool} {q : Rat} {x : F64} (hx : fl zeroSign q = some x) (hq : q ≠ 0) :
    F64.exact x = (if q < 0 then -1 else 1) * roundToPlace |q| := by
  rw [(fl_spec hx).2.2, if_neg hq, roundToPlace]

/-- What `fl` answers is the nearest binary64 value, ties to even (R14, R126). -/
theorem nearestEven_fl {zeroSign : Bool} {q : Rat} {x : F64} (hx : fl zeroSign q = some x) :
    NearestEven x q := by
  obtain ⟨hfin, -, hval⟩ := fl_spec hx
  refine ⟨hfin, fun y _ => ?_⟩
  have hy := isBinary64Value_exact y
  rcases lt_trichotomy q 0 with hq | rfl | hq
  · have habs : |q| = -q := abs_of_neg hq
    have hex : F64.exact x = -roundToPlace (-q) := by
      rw [exact_fl hx hq.ne, if_pos hq, habs, neg_one_mul]
    obtain ⟨hle, heven⟩ := roundToPlace_nearest (neg_pos.mpr hq) hy.neg
    have hdist : ∀ v : Rat, |v - -q| = |-v - q| := fun v => by
      rw [← abs_neg]; congr 1; ring
    rw [hdist, hdist, neg_neg, ← hex] at hle heven
    refine ⟨hle, fun hne heq => significand_fl_mod_two hx ?_⟩
    rw [habs]
    exact flMagnitude_mod_two (neg_pos.mpr hq)
      (heven (fun hc => hne (by rw [hex, ← hc, neg_neg])) heq)
  · rw [if_pos rfl] at hval
    rw [hval, sub_zero, sub_zero, abs_zero]
    exact ⟨abs_nonneg _, fun hne heq => absurd (abs_eq_zero.mp heq.symm) hne⟩
  · have habs : |q| = q := abs_of_pos hq
    have hex : F64.exact x = roundToPlace q := by
      rw [exact_fl hx hq.ne', if_neg hq.not_gt, habs, one_mul]
    obtain ⟨hle, heven⟩ := roundToPlace_nearest hq hy
    rw [← hex] at hle heven
    refine ⟨hle, fun hne heq => significand_fl_mod_two hx ?_⟩
    rw [habs]
    exact flMagnitude_mod_two hq (heven hne heq)

/-- A result of magnitude at most 2^1023 is rounded to the nearest binary64 value. -/
theorem nearestEven_flOf (c : FloatCase) (zeroSign : Bool) {q : Rat} (h : |q| ≤ pow2 1023) :
    NearestEven (flOf c zeroSign q) q := by
  obtain ⟨x, hx, -⟩ := fl_bounded zeroSign (by norm_num) le_rfl h
  rw [flOf, hx]
  exact nearestEven_fl hx

/-! ## The operations on finite operands (R126) -/

section
variable {a b : F64} (ha : F64.isFinite a = true) (hb : F64.isFinite b = true)
include ha hb

theorem fadd_of_finite : fadd a b =
    flOf (.add a b) (F64.sign a && F64.sign b) (F64.exact a + F64.exact b) := by
  simp [fadd, ha, hb]

theorem fsub_of_finite : fsub a b =
    flOf (.sub a b) (F64.sign a && !F64.sign b) (F64.exact a - F64.exact b) := by
  simp [fsub, ha, hb]

theorem fmul_of_finite : fmul a b =
    flOf (.mul a b) (F64.sign a ^^ F64.sign b) (F64.exact a * F64.exact b) := by
  simp [fmul, ha, hb]

theorem fdiv_of_finite (h0 : F64.exact b ≠ 0) : fdiv a b =
    flOf (.div a b) (F64.sign a ^^ F64.sign b) (F64.exact a / F64.exact b) := by
  simp [fdiv, ha, hb, h0]

end

/-- Settles O13: each operation is `fl` of its exact result, and `fl` gives the nearest value. -/
theorem floatOperationsAreCorrectlyRounded : Obligations.FloatOperationsAreCorrectlyRounded := by
  intro a b ha hb
  refine ⟨fun h => ?_, fun h => ?_, fun h => ?_, fun h0 h => ?_⟩
  · rw [fadd_of_finite ha hb]
    exact nearestEven_flOf _ _ h
  · rw [fsub_of_finite ha hb]
    exact nearestEven_flOf _ _ h
  · rw [fmul_of_finite ha hb]
    exact nearestEven_flOf _ _ h
  · rw [fdiv_of_finite ha hb h0]
    exact nearestEven_flOf _ _ h

end Sys2Proof.Machine

/-! PROOFS. The invariant of the registers, at reset and after every step (R33, R34, R36 to R41,
R252). -/

namespace Sys2Proof.Machine

open Sys2Proof

variable {s t u : State}

/-- Settles O40: each register is at the value R43's table gives. -/
theorem resetStateIsTheSpecs : Obligations.ResetStateIsTheSpecs :=
  ⟨fun k => by simp [State.reset], rfl, rfl, rfl, rfl, rfl, rfl, rfl, rfl⟩

/-! ## The calibration file -/

/-- Writing word k after the first k words leaves values in the first k + 1 (R155). -/
theorem holds_writeCalibration {k : Fin 10} (w : Word16)
    (h : ∀ j : Fin 10, s.calw[j].holds = decide (j < k)) (j : Fin 10) :
    (writeCalibration k w s).calw[j].holds = decide (j.val < k.val + 1) := by
  have hj : s.calw[j.val].holds = decide (j < k) := h j
  simp only [writeCalibration_calw, Fin.getElem_fin, Vector.getElem_set]
  split
  · next hkj => simp [← hkj]
  · next hkj => rw [hj, decide_eq_decide, Fin.lt_def]; omega

/-- INIT's phases are those in which it waits for a calibration word (R35). -/
theorem isInit_eq_true {p : Phase} : p.isInit = true ↔ ∃ k, p = .initRd k := by
  cases p <;> simp [Phase.isInit]

/-! ## The invariant over the operations every transition is made of -/

/-- The invariant speaks of the registers alone. -/
theorem Inv.of_registers (hs : Inv s) (held : List Byte) (inputs : List Input) (abandoned : Nat)
    (trace : List Event) :
    Inv { s with held := held, inputs := inputs, abandoned := abandoned, trace := trace } :=
  ⟨hs.calibrated, hs.uncalibrated, hs.loading, hs.gate, hs.operation, hs.latched, hs.resultValid,
    hs.busyNoResult, hs.resultOk⟩

theorem Inv.reset : Inv State.reset where
  calibrated := nofun
  uncalibrated _ _ k := by simp [State.reset]
  loading := nofun
  gate := nofun
  operation := rfl
  latched := nofun
  resultValid := rfl
  busyNoResult := nofun
  resultOk := nofun

theorem Inv.accept (hs : Inv s) (hp : s.phase = .idle) (w : Byte) : Inv (accept w s) where
  calibrated := hs.calibrated
  uncalibrated := hs.uncalibrated
  loading := hs.loading
  gate := hs.gate
  operation := by simp [hp, hasPhase]
  latched := hs.latched
  resultValid := rfl
  busyNoResult _ := rfl
  resultOk := nofun

/-- A new word in TR leaves the invariant as it is. -/
theorem Inv.writeTr (hs : Inv s) (w : Word16) : Inv { s with tr := .written w } :=
  ⟨hs.calibrated, hs.uncalibrated, hs.loading, hs.gate, hs.operation, fun _ => rfl, hs.resultValid,
    hs.busyNoResult, hs.resultOk⟩

/-- A phase of a conversion is entered with the calibration valid, an operation that has the phase, and
TR latched where the phase needs it (R36, R38, R252). -/
theorem Inv.enter_conversion {p : Phase} (hs : Inv s) (hp : p.isConversion = true)
    (hv : s.calValid = true) (hop : hasPhase s.curop p = true)
    (hl : p.isPressure = true → s.tr.holds = true) (hr : s.rvalid = false) : Inv (enter p s) where
  calibrated := hs.calibrated
  uncalibrated h := absurd h (by simp [hv])
  loading k hk := by
    obtain rfl : p = .initRd k := hk
    cases hp
  gate _ := hv
  operation := hop
  latched := hl
  resultValid := hs.resultValid
  busyNoResult _ := hr
  resultOk := hs.resultOk

/-- `INIT_RD(k+1)` is entered with the first k words read, and no others (R155). -/
theorem inv_enter_initRd {k : Fin 10} (hv : s.calValid = false)
    (hw : ∀ j : Fin 10, s.calw[j].holds = decide (j < k))
    (hop : hasPhase s.curop (.initRd k) = true) (hr : s.rvalid = false)
    (hres : s.result.holds = false) : Inv (enter (.initRd k) s) where
  calibrated h := absurd h (by simp [hv])
  uncalibrated _ := nofun
  loading l hl := by
    obtain rfl : k = l := Phase.initRd.inj hl
    exact ⟨hv, hw⟩
  gate := nofun
  operation := hop
  latched := nofun
  resultValid := hr.trans hres.symm
  busyNoResult _ := hr
  resultOk h := absurd h (by simp [hr])

/-- A response leaves the invariant if CAL_VALID says what the calibration words hold and only a result
of status OK is returned (R33, R41). -/
theorem inv_respond {st : Status} {v : Option (BitVec 64)}
    (hw : ∀ k : Fin 10, s.calw[k].holds = s.calValid) (hst : v.isSome = true → st = .ok) :
    Inv (respond st v s) where
  calibrated h k := (hw k).trans h
  uncalibrated h _ k := (hw k).trans h
  loading := nofun
  gate := nofun
  operation := rfl
  latched := nofun
  resultValid := (resultAfter_holds s v).symm
  busyNoResult := nofun
  resultOk := hst

/-- Outside INIT, CAL_VALID says of every calibration word whether it holds a value (R33). -/
theorem Inv.holds_calw (hs : Inv s) (hp : s.phase.isInit = false) (k : Fin 10) :
    s.calw[k].holds = s.calValid := by
  cases hv : s.calValid with
  | true => exact hs.calibrated hv k
  | false => exact hs.uncalibrated hv hp k

theorem Inv.raise (hs : Inv s) (e : ErrorKind) : Inv (raise e s) := by
  unfold Machine.raise
  split
  · next hp =>
    obtain ⟨k, hk⟩ := isInit_eq_true.mp hp
    obtain ⟨hv, _⟩ := hs.loading k hk
    exact inv_respond (fun j => by simp [hv]) nofun
  · next hp => exact inv_respond (hs.holds_calw (by simpa using hp)) nofun

/-- After a calibration word INIT has one word more, or has them all and ends (R155). -/
theorem Inv.afterCalibrationWord {k : Fin 10} (hs : Inv s) (hp : s.phase = .initRd k) (w : Word16) :
    Inv (afterCalibrationWord k (writeCalibration k w s)) := by
  obtain ⟨hv, hw⟩ := hs.loading k hp
  have hr : s.rvalid = false := hs.busyNoResult (by simp [hp])
  have hop : hasPhase s.curop (.initRd k) = true := hp ▸ hs.operation
  unfold Machine.afterCalibrationWord
  split
  · next h =>
    exact inv_enter_initRd hv (holds_writeCalibration w hw) hop hr (hs.resultValid.symm.trans hr)
  · next h =>
    refine inv_respond (fun j => (holds_writeCalibration w hw j).trans ?_) nofun
    exact decide_eq_true (by omega)

/-! ## The operation of the phase -/

/-- A conversion's opword has the phase T_CMD (R36). -/
theorem hasPhase_tCmd {w : Byte} (h : isConversionOpword w = true) :
    hasPhase (.written w) .tCmd = true := by
  simpa [hasPhase, isConversionOpword] using h

/-- While an operation runs CUROP holds its opword (R37). -/
theorem Inv.curop_holds (hs : Inv s) (hp : s.phase ≠ .idle) : s.curop.holds = true := by
  have hop := hs.operation
  cases hph : s.phase <;> rw [hph] at hop hp <;> simp_all [hasPhase]

/-- A PRES opword in CUROP has the pressure phases (R36). -/
theorem Inv.hasPhase_pCmd {m : Mode} (hs : Inv s) (hp : s.phase = .tRd)
    (hm : s.curop.value = presOpword m) : hasPhase s.curop .pCmd = true := by
  have hc := hs.curop_holds (by simp [hp])
  simp [hasPhase, hc, hm, opwordMode_presOpword]

/-! ## The obligations -/

/-- Settles O48. -/
theorem resetMeetsTheInvariant : Obligations.ResetMeetsTheInvariant := Inv.reset

/-- Every transition keeps the invariant. -/
theorem Transition.inv (h : Transition s t) (hs : Inv s) : Inv t := by
  have busy {p : Phase} (hp : s.phase = p) (hne : p ≠ .idle) : s.rvalid = false :=
    hs.busyNoResult (by simpa [hp] using hne)
  have gate {p : Phase} (hp : s.phase = p) (hc : p.isConversion = true) : s.calValid = true :=
    hs.gate (hp ▸ hc)
  have latched {p : Phase} (hp : s.phase = p) (hc : p.isPressure = true) : s.tr.holds = true :=
    hs.latched (hp ▸ hc)
  have has {p : Phase} (hp : s.phase = p) : hasPhase s.curop p = true := hp ▸ hs.operation
  have taken (rest : List Input) : Inv { s with inputs := rest } := hs.of_registers _ _ _ _
  cases h with
  | initAccepted rest hp hh hv =>
    have hnone := hs.uncalibrated hv (by rw [hp]; rfl)
    exact inv_enter_initRd hv (fun j => by simpa using hnone j) rfl rfl rfl
  | conversionAccepted w rest hp hh hw hv =>
    exact Inv.enter_conversion ((hs.of_registers rest _ _ _).accept hp w) rfl hv (hasPhase_tCmd hw)
      nofun rfl
  | uninitialized w rest hp => exact ((hs.of_registers rest _ _ _).accept hp w).raise _
  | calibrationWord k b0 b1 rest hp => exact (taken rest).afterCalibrationWord hp _
  | failed rest => exact (taken rest).raise _
  | temperatureCommand rest hp | temperatureDelayDone rest hp =>
    exact (taken rest).enter_conversion rfl (gate hp rfl) (has hp :) nofun (busy hp nofun)
  | pressureCommand m rest hp | pressureDelayDone m rest hp =>
    exact (taken rest).enter_conversion rfl (gate hp rfl) (has hp :) (fun _ => latched hp rfl)
      (busy hp nofun)
  | pressureStarts m b0 b1 rest hp hm =>
    exact ((taken rest).writeTr _).enter_conversion rfl (gate hp rfl) (hs.hasPhase_pCmd hp hm)
      (fun _ => rfl) (busy hp nofun)
  | temperatureEnds f b0 b1 rest hp | pressureEnds m b0 b1 rest hp =>
    exact inv_respond (hs.holds_calw (by simp [hp, Phase.isInit])) fun _ => rfl
  | requestArrives | portRead | lateAnswerDropped => exact hs.of_registers _ _ _ _
  | resetTaken => exact Inv.reset.of_registers _ _ _ _
  | rests => exact hs

/-- Settles O49: every transition keeps the invariant. -/
theorem stepKeepsTheInvariant : Obligations.StepKeepsTheInvariant :=
  fun _ _ hs h => (step_transition h).inv hs

end Sys2Proof.Machine

/-! PROOFS. What a transition writes: the calibration, the phase, the latches and the requests it issues
(R33 to R39, R61, R72). -/

namespace Sys2Proof.Machine

open Sys2Proof

variable {s t u : State}

/-! ## A step that takes a reset -/

/-- The next step takes a reset: one is the next input, and no held request is accepted before it (log
entry 4). -/
def State.TakesReset (s : State) : Prop :=
  (s.phase ≠ .idle ∨ s.held = []) ∧ s.inputs.head? = some .reset

theorem not_takesReset (h : s.inputs.head? ≠ some .reset ∨ (s.phase = .idle ∧ s.held ≠ [])) :
    ¬ s.TakesReset := by
  rintro ⟨hp, hi⟩
  rcases h with h | ⟨hidle, hheld⟩
  · exact h hi
  · exact hp.elim (· hidle) hheld

theorem takesReset_of_inputs {rest : List Input} (hp : s.phase ≠ .idle ∨ s.held = [])
    (hi : s.inputs = .reset :: rest) : s.TakesReset := ⟨hp, by rw [hi]; rfl⟩

/-! ## What comes after a calibration word -/

@[simp] theorem afterCalibrationWord_curop (k : Fin 10) (s : State) :
    (afterCalibrationWord k s).curop = s.curop := by
  unfold afterCalibrationWord; split <;> rfl

@[simp] theorem afterCalibrationWord_tr (k : Fin 10) (s : State) :
    (afterCalibrationWord k s).tr = s.tr := by
  unfold afterCalibrationWord; split <;> rfl

@[simp] theorem afterCalibrationWord_praw (k : Fin 10) (s : State) :
    (afterCalibrationWord k s).praw = s.praw := by
  unfold afterCalibrationWord; split <;> rfl

/-- After calibration word k the next read is issued, or INIT ends and the calibration is valid (R155). -/
theorem afterCalibrationWord_cases (k : Fin 10) (s : State) :
    (∃ l : Fin 10, l.val = k.val + 1 ∧ afterCalibrationWord k s = enter (.initRd l) s) ∨
    (k = 9 ∧ afterCalibrationWord k s = respond .ok none { s with calValid := true }) := by
  unfold afterCalibrationWord
  split
  · next h => exact .inl ⟨⟨_, h⟩, rfl, rfl⟩
  · next h => exact .inr ⟨by omega, rfl⟩

/-- CAL_VALID is set after the tenth word alone, and INIT then ends with STATUS = OK (R155). -/
theorem afterCalibrationWord_calValid (k : Fin 10) (s : State) :
    (afterCalibrationWord k s).calValid = s.calValid ∨
    (k = 9 ∧ (afterCalibrationWord k s).phase = .idle ∧
      (afterCalibrationWord k s).status = .ok) := by
  rcases afterCalibrationWord_cases k s with ⟨l, _, h⟩ | ⟨hk, h⟩ <;> rw [h]
  · exact .inl rfl
  · exact .inr ⟨hk, rfl, rfl⟩

theorem afterCalibrationWord_phase (k : Fin 10) (s : State) :
    (afterCalibrationWord k s).phase = .idle ∨
    (Phase.initRd k).follows (afterCalibrationWord k s).phase = true := by
  rcases afterCalibrationWord_cases k s with ⟨l, hl, h⟩ | ⟨_, h⟩ <;> rw [h]
  · exact .inr (by simp [Phase.follows, hl])
  · exact .inl rfl

/-! ## The calibration -/

/-- The calibration stays, or a step of INIT writes it, with CAL_VALID only at its end and with the tenth
word, or a reset clears it (R33, R34). -/
theorem Transition.calibration (h : Transition s t) :
    (t.calw = s.calw ∧ t.calValid = s.calValid) ∨
    (∃ k, s.phase = .initRd k ∧
      (t.calValid = s.calValid ∨ (k = 9 ∧ t.phase = .idle ∧ t.status = .ok))) ∨
    (s.TakesReset ∧ t.calValid = false) := by
  cases h with
  | calibrationWord k b0 b1 rest hp =>
    exact .inr (.inl ⟨k, hp, afterCalibrationWord_calValid k _⟩)
  | failed rest hp =>
    by_cases hinit : s.phase.isInit = true
    · obtain ⟨k, hk⟩ := isInit_eq_true.mp hinit
      exact .inr (.inl ⟨k, hk, .inl (raise_calValid _ _)⟩)
    · exact .inl (by simp [hinit])
  | uninitialized w rest hp => exact .inl (by simp [hp, Phase.isInit])
  | resetTaken rest hp hi => exact .inr (.inr ⟨takesReset_of_inputs hp hi, rfl⟩)
  | initAccepted | conversionAccepted | temperatureCommand | pressureCommand
  | temperatureDelayDone | pressureDelayDone | temperatureEnds | pressureStarts | pressureEnds
  | requestArrives | portRead | lateAnswerDropped | rests => exact .inl ⟨rfl, rfl⟩

/-- While CAL_VALID = 1 INIT does not run (R34). -/
theorem Inv.phase_ne_initRd (hs : Inv s) (hv : s.calValid = true) (k : Fin 10) :
    s.phase ≠ .initRd k := by
  intro hp
  obtain ⟨hv', _⟩ := hs.loading k hp
  simp [hv] at hv'

/-- Settles O51: of the transitions only INIT's and a reset write the calibration. -/
theorem calibrationIsImmutable : Obligations.CalibrationIsImmutable := by
  intro s t hs h hreset
  rcases (step_transition h).calibration with ⟨hw, hv⟩ | ⟨k, hk, _⟩ | ⟨hr, _⟩
  · exact ⟨fun hvalid => ⟨hw, hv.trans hvalid⟩, fun _ hne => absurd hw hne⟩
  · exact ⟨fun hvalid => absurd hk (hs.phase_ne_initRd hvalid k), fun _ _ => ⟨k, hk⟩⟩
  · exact absurd hr (not_takesReset hreset)

/-- In `INIT_RD(k+1)` CUROP holds INIT's opword (R37). -/
theorem Inv.curop_init {k : Fin 10} (hs : Inv s) (hp : s.phase = .initRd k) :
    s.curop = .written 0x01 := by
  have hop : hasPhase s.curop (.initRd k) = true := hp ▸ hs.operation
  simp only [hasPhase, Bool.and_eq_true, beq_iff_eq] at hop
  obtain ⟨hholds, hvalue⟩ := hop
  rw [eq_written hholds, hvalue]

/-- Settles O52: the transition that sets CAL_VALID is INIT's last, the one that clears it a reset. -/
theorem calValidIsSetOnlyByInit : Obligations.CalValidIsSetOnlyByInit := by
  intro s t hs h
  have ht : Inv t := (step_transition h).inv hs
  rcases (step_transition h).calibration with ⟨_, hv⟩ | ⟨k, hk, hv | ⟨rfl, hphase, hstatus⟩⟩ |
    ⟨⟨_, hr⟩, hv⟩
  · constructor <;> simp +contextual [hv]
  · constructor <;> simp +contextual [hv]
  · refine ⟨fun _ hset => ⟨hk, hs.curop_init hk, hphase, hstatus, ht.calibrated hset⟩, ?_⟩
    intro hvalid
    exact absurd hk (hs.phase_ne_initRd hvalid 9)
  · exact ⟨by simp [hv], fun _ _ => hr⟩

/-! ## The phase -/

/-- The phase stays, becomes IDLE or goes to the next row of its operation, from T_RD only in PRES (R36). -/
theorem Transition.phase (h : Transition s t) :
    t.phase = s.phase ∨ t.phase = .idle ∨
    (s.phase.follows t.phase = true ∧ (s.phase = .tRd → ∃ m, s.curop.value = presOpword m)) := by
  cases h with
  | initAccepted rest hp | conversionAccepted w rest hp | temperatureCommand rest hp
  | pressureCommand m rest hp | temperatureDelayDone rest hp | pressureDelayDone m rest hp =>
    exact .inr (.inr (by simp [hp, Phase.follows]))
  | pressureStarts m b0 b1 rest hp hm =>
    exact .inr (.inr ⟨by simp [hp, Phase.follows], fun _ => ⟨m, hm⟩⟩)
  | calibrationWord k b0 b1 rest hp =>
    exact .inr <| (afterCalibrationWord_phase k _).imp_right fun h => ⟨hp ▸ h, by simp [hp]⟩
  | uninitialized | failed => exact .inr (.inl (raise_phase _ _))
  | temperatureEnds | pressureEnds | resetTaken => exact .inr (.inl rfl)
  | requestArrives | portRead | lateAnswerDropped | rests => exact .inl rfl

/-- Settles O53: every transition goes along a row of R36. -/
theorem phaseFollowsItsOperation : Obligations.PhaseFollowsItsOperation := by
  intro s t h
  rcases (step_transition h).phase with hp | hp | ⟨hp, hm⟩
  · exact ⟨.inl hp, by simp +contextual [hp]⟩
  · exact ⟨.inr (.inl hp), by simp [hp]⟩
  · exact ⟨.inr (.inr hp), fun htRd _ => hm htRd⟩

/-! ## The requests -/

/-- From s to t a request is issued exactly when a phase is entered, and it is that phase's own (R35,
R61). -/
def IssuesOnEntry (s t : State) : Prop :=
  (t.phase ≠ s.phase → t.phase ≠ .idle →
    ∃ r, t.outstanding = some r ∧ t.trace = s.trace ++ [.issued r]) ∧
  (t.phase = s.phase ∨ t.phase = .idle → ∃ new, t.trace = s.trace ++ new ∧ requestsOf new = [])

theorem issuesOnEntry_enter {p q : Phase} {r : Request}
    (hr : State.outstanding { u with phase := p } = some r) (ht : u.trace = s.trace)
    (hq : s.phase = q) (hpq : p ≠ q) (hp : p ≠ .idle) : IssuesOnEntry s (enter p u) := by
  refine ⟨fun _ _ => ⟨r, hr, by rw [enter_trace_of_outstanding hr, ht]⟩, ?_⟩
  rintro (h | h)
  · exact absurd (h.trans hq) hpq
  · exact absurd h hp

theorem issuesOnEntry_of_no_request (hp : t.phase = s.phase ∨ t.phase = .idle) (new : List Event)
    (ht : t.trace = s.trace ++ new) (hn : requestsOf new = []) : IssuesOnEntry s t := by
  refine ⟨fun hne hidle => ?_, fun _ => ⟨new, ht, hn⟩⟩
  exact absurd hp (not_or.mpr ⟨hne, hidle⟩)

theorem issuesOnEntry_afterCalibrationWord {k : Fin 10} (ht : u.trace = s.trace)
    (hp : s.phase = .initRd k) : IssuesOnEntry s (afterCalibrationWord k u) := by
  rcases afterCalibrationWord_cases k u with ⟨l, hl, h⟩ | ⟨_, h⟩ <;> rw [h]
  · refine issuesOnEntry_enter (outstanding_initRd rfl) ht hp (fun hlk => ?_) nofun
    rw [Phase.initRd.inj hlk] at hl
    omega
  · exact issuesOnEntry_of_no_request (.inr rfl) [.responded .ok none] (by simp [ht]) rfl

theorem Transition.issuesOnEntry (h : Transition s t) : IssuesOnEntry s t := by
  cases h with
  | initAccepted rest hp => exact issuesOnEntry_enter (outstanding_initRd rfl) rfl hp nofun nofun
  | conversionAccepted w rest hp =>
    exact issuesOnEntry_enter (outstanding_tCmd rfl) rfl hp nofun nofun
  | calibrationWord k b0 b1 rest hp => exact issuesOnEntry_afterCalibrationWord rfl hp
  | temperatureCommand rest hp =>
    exact issuesOnEntry_enter (outstanding_tWait rfl) rfl hp nofun nofun
  | pressureCommand m rest hp hm =>
    exact issuesOnEntry_enter (outstanding_pWait rfl hm) rfl hp nofun nofun
  | temperatureDelayDone rest hp =>
    exact issuesOnEntry_enter (outstanding_tRd rfl) rfl hp nofun nofun
  | pressureDelayDone m rest hp =>
    exact issuesOnEntry_enter (outstanding_pRd rfl) rfl hp nofun nofun
  | pressureStarts m b0 b1 rest hp hm =>
    exact issuesOnEntry_enter (outstanding_pCmd rfl hm) rfl hp nofun nofun
  | uninitialized | failed =>
    exact issuesOnEntry_of_no_request (.inr (raise_phase _ _)) _ (raise_trace _ _) rfl
  | temperatureEnds | pressureEnds => exact issuesOnEntry_of_no_request (.inr rfl) _ rfl rfl
  | portRead r v => exact issuesOnEntry_of_no_request (.inl rfl) [.gave r v] rfl rfl
  | resetTaken => exact issuesOnEntry_of_no_request (.inr rfl) [] (by simp) rfl
  | requestArrives | lateAnswerDropped | rests =>
    exact issuesOnEntry_of_no_request (.inl rfl) [] (by simp) rfl

/-- Settles O56: every transition that enters a phase issues that phase's request, and no other does. -/
theorem oneRequestIsOutstanding : Obligations.OneRequestIsOutstanding :=
  fun _ _ h => (step_transition h).issuesOnEntry

/-! ## The latches -/

/-- CUROP is written at an acceptance, TR at the temperature read, PRAW at the pressure read (R37, R38,
R39). -/
theorem Transition.latches (h : Transition s t) (hreset : ¬ s.TakesReset) :
    (t.curop = s.curop ∨
      (s.phase = .idle ∧ ∃ w rest, s.held = w :: rest ∧ t.curop = .written w)) ∧
    (t.tr = s.tr ∨ s.phase = .tRd) ∧ (t.praw = s.praw ∨ s.phase = .pRd) := by
  cases h with
  | initAccepted rest hp hh | conversionAccepted w rest hp hh =>
    exact ⟨.inr ⟨hp, _, _, hh, rfl⟩, .inl rfl, .inl rfl⟩
  | uninitialized w rest hp hh =>
    exact ⟨.inr ⟨hp, w, rest, hh, raise_curop _ _⟩, .inl (raise_tr _ _), .inl (raise_praw _ _)⟩
  | failed => exact ⟨.inl (raise_curop _ _), .inl (raise_tr _ _), .inl (raise_praw _ _)⟩
  | calibrationWord => exact ⟨.inl (by simp), .inl (by simp), .inl (by simp)⟩
  | temperatureEnds f b0 b1 rest hp | pressureStarts m b0 b1 rest hp =>
    exact ⟨.inl rfl, .inr hp, .inl rfl⟩
  | pressureEnds m b0 b1 rest hp => exact ⟨.inl rfl, .inl rfl, .inr hp⟩
  | resetTaken rest hp hi => exact absurd (takesReset_of_inputs hp hi) hreset
  | temperatureCommand | pressureCommand | temperatureDelayDone | pressureDelayDone
  | requestArrives | portRead | lateAnswerDropped | rests => exact ⟨.inl rfl, .inl rfl, .inl rfl⟩

/-- Settles O58: each latch is written by its own transitions alone. -/
theorem latchesAreWrittenInTheirPhases : Obligations.LatchesAreWrittenInTheirPhases := by
  intro s t h hreset
  obtain ⟨hcurop, htr, hpraw⟩ := (step_transition h).latches (not_takesReset hreset)
  exact ⟨hcurop.resolve_left, htr.resolve_left, hpraw.resolve_left⟩

end Sys2Proof.Machine

/-! PROOFS. What a step runs (R35, R36, R90), what acceptance gives (R36, R155, R183), and the host's
reads (R45). -/

namespace Sys2Proof.Machine

open Sys2Proof

variable {s t u : State}

/-! ## Acceptance -/

/-- Entering a phase changes the phase and records its request. -/
theorem enter_eq {p : Phase} {r : Request} (h : State.outstanding { s with phase := p } = some r) :
    enter p s = { s with phase := p, trace := s.trace ++ [.issued r] } := by
  simp [enter, h]

/-- Settles O25: INIT is accepted and its first read issued. -/
theorem initIsAccepted : Obligations.InitIsAccepted := by
  intro s hp hv
  rw [exec, execInit, requested_idle hp, if_neg (by simp [hv]), enter_eq (outstanding_initRd rfl)]
  rfl

/-- The rows of the host interface but INIT are the requests for a conversion (R185, R186, R217). -/
theorem exec_conversion {i : Instr} (hf : i.format = .hostOp) (hi : i ≠ .init) (s : State) :
    exec i s = requested i.byte s (startConversion i.byte) := by
  cases i
  case init => exact absurd rfl hi
  case traw | temp | presLow | presStandard | presHigh | presUltra => rfl
  all_goals cases hf

/-- Settles O26: a conversion is accepted and the temperature command issued. -/
theorem conversionIsAccepted : Obligations.ConversionIsAccepted := by
  intro i s hf hi hp hv
  rw [exec_conversion hf hi, requested_idle hp, startConversion_valid hv,
    enter_eq (outstanding_tCmd rfl)]
  rfl

/-! ## What a step runs -/

/-- In IDLE the oldest held request runs, whatever inputs are to come (R267). -/
theorem step_held {w : Byte} {rest : List Byte} (hp : s.phase = .idle) (hh : s.held = w :: rest) :
    step s = runRequest w { s with held := rest } := by
  simp [step, hp, hh]

/-- An answer runs the word that the phase emits (R35). -/
theorem step_emitted {a : Answer} {rest : List Input} {i : Instr}
    (hi : s.inputs = .answer a :: rest) (he : s.emitted = some i) : step s = exec i s := by
  have hp : s.phase ≠ .idle := by
    intro hidle
    simp [emitted_eq_none (.inl hidle)] at he
  rw [step_answer hp hi, runAnswer, he]

/-- Every row's byte is the row's in its own format (R91, R94, R96). -/
theorem decodeByte_byte (i : Instr) : decodeByte i.format i.byte = some i := by
  cases i <;> rfl

/-- Settles O24: a held opword and an emitted word are run by `exec`. -/
theorem stepRunsTheDecodedInstruction : Obligations.StepRunsTheDecodedInstruction := by
  refine ⟨fun s w rest i hp hh hd => ?_, fun s a rest i hi he => ?_⟩
  · rw [step_held hp hh, runRequest, hd]
  · exact ⟨step_emitted hi he, decodeByte_byte i⟩

/-! ## The host's reads -/

theorem readPort_inputs (r : HostRead) (s : State) (rest : List Input) :
    readPort r { s with inputs := rest } = readPort r s := by
  cases r <;> rfl

theorem readPort_cal (k : Fin 10) (hv : s.calValid = true) :
    readPort (.cal (k.val + 1)) s = .next (.coefficient (s.coefficient k)) :=
  dif_pos ⟨hv, by omega, by omega⟩

/-- Settles O39: the ports give the registers, and the step of a read records the value alone. -/
theorem hostReadsHaveNoSideEffects : Obligations.HostReadsHaveNoSideEffects := by
  refine ⟨⟨rfl, rfl, rfl, rfl⟩, fun s => ⟨?_, rfl, rfl, rfl⟩, fun s hv => ?_,
    fun s k hv => readPort_cal k hv, fun s r v rest hp hi hr => ?_⟩
  · simp [readPort, State.busy, bne, beq_eq_decide]
  · exact if_pos hv
  · simp only [step_input hp, runInput, hi, hostRead, readPort_inputs, hr]
    rfl

end Sys2Proof.Machine

/-! PROOFS. What an answer does under the invariant: each phase performs its own request (R35, R36), which
never faults, and an answer that fits the request brings the operation nearer its end (R257). -/

namespace Sys2Proof.Machine

open Sys2Proof

variable {s t u : State}

/-! ## What each phase performs -/

/-- What an answer is taken by, in a phase and with the opword that CUROP has there (R36): the rows of the
phases of every operation, and no row for a phase that the opword's operation does not have. -/
inductive Performs : Phase → Byte → (State → Outcome) → Prop
  | calibrationWord (k : Fin 10) (w : Byte) : Performs (.initRd k) w fun s =>
      readAnswer s fun v s => .next (afterCalibrationWord k (writeCalibration k v s))
  | temperatureCommand (w : Byte) : Performs .tCmd w fun s =>
      writeAnswer s fun s => .next (enter .tWait s)
  | temperatureDelay (w : Byte) : Performs .tWait w fun s =>
      sleepAnswer s fun s => .next (enter .tRd s)
  | trawEnds : Performs .tRd 0x02 fun s =>
      readAnswer s fun v s => .next (endTemperature trawResult { s with tr := .written v })
  | tempEnds : Performs .tRd 0x03 fun s =>
      readAnswer s fun v s => .next (endTemperature tdeg { s with tr := .written v })
  | pressureStarts (m : Mode) : Performs .tRd (presOpword m) fun s =>
      readAnswer s fun v s => .next (enter .pCmd { s with tr := .written v })
  | pressureCommand (m : Mode) : Performs .pCmd (presOpword m) fun s =>
      writeAnswer s fun s => .next (enter .pWait s)
  | pressureDelay (m : Mode) : Performs .pWait (presOpword m) fun s =>
      sleepAnswer s fun s => .next (enter .pRd s)
  | pressureEnds (m : Mode) : Performs .pRd (presOpword m) fun s =>
      readAnswer s fun v s => .next (endPressure { s with praw := .written v })

/-- Under the invariant every phase but IDLE is one of its operation's (R36). -/
theorem Inv.performs (hs : Inv s) (hp : s.phase ≠ .idle) :
    ∃ f, Performs s.phase s.curop.value f := by
  have hop := hs.operation
  cases hph : s.phase <;> rw [hph] at hop hp
  case idle => exact absurd rfl hp
  case initRd k => exact ⟨_, .calibrationWord k _⟩
  case tCmd => exact ⟨_, .temperatureCommand _⟩
  case tWait => exact ⟨_, .temperatureDelay _⟩
  case tRd =>
    simp only [hasPhase, Bool.and_eq_true, Bool.or_eq_true, beq_iff_eq] at hop
    obtain ⟨_, (hc | hc) | hmode⟩ := hop
    · exact ⟨_, by rw [hc]; exact .trawEnds⟩
    · exact ⟨_, by rw [hc]; exact .tempEnds⟩
    · obtain ⟨m, hm⟩ := curop_of_mode hmode
      exact ⟨_, by rw [hm]; exact .pressureStarts m⟩
  all_goals
    simp only [hasPhase, Bool.and_eq_true] at hop
    obtain ⟨_, hmode⟩ := hop
    obtain ⟨m, hm⟩ := curop_of_mode hmode
    rw [hm]
  case pCmd => exact ⟨_, .pressureCommand m⟩
  case pWait => exact ⟨_, .pressureDelay m⟩
  case pRd => exact ⟨_, .pressureEnds m⟩

/-- A read depends on what follows only for the answer at hand. -/
theorem readAnswer_congr {go go' : Word16 → State → Outcome}
    (h : ∀ v rest, go v { s with inputs := rest } = go' v { s with inputs := rest }) :
    readAnswer s go = readAnswer s go' := by
  unfold readAnswer
  split
  · exact h _ _
  all_goals rfl

theorem temperatureRead_traw (hc : s.curop.value = 0x02) : temperatureRead s =
    readAnswer s fun v s => .next (endTemperature trawResult { s with tr := .written v }) := by
  refine readAnswer_congr fun v rest => ?_
  simp only [hc]
  rfl

theorem temperatureRead_temp (hc : s.curop.value = 0x03) : temperatureRead s =
    readAnswer s fun v s => .next (endTemperature tdeg { s with tr := .written v }) := by
  refine readAnswer_congr fun v rest => ?_
  simp only [hc]
  rfl

theorem temperatureRead_pres {m : Mode} (hc : s.curop.value = presOpword m) : temperatureRead s =
    readAnswer s fun v s => .next (enter .pCmd { s with tr := .written v }) := by
  refine readAnswer_congr fun v rest => ?_
  simp only [hc, State.mode]
  cases m <;> rfl

theorem pressureRead_pres {m : Mode} (hc : s.curop.value = presOpword m) : pressureRead s =
    readAnswer s fun v s => .next (endPressure { s with praw := .written v }) := by
  refine readAnswer_congr fun v rest => ?_
  simp [hc, State.mode, opwordMode_presOpword]

/-- With an answer at hand a step performs what the phase performs. -/
theorem step_performs {f : State → Outcome} {a : Answer} {rest : List Input}
    (h : Performs s.phase s.curop.value f) (hi : s.inputs = .answer a :: rest) : step s = f s := by
  generalize hp : s.phase = p at h
  generalize hc : s.curop.value = w at h
  cases h with
  | calibrationWord k =>
    have he := emitted_initRd hp
    rw [step_emitted hi he, exec_calInstr, calibrationRead, performed_of_emitted he]
  | temperatureCommand =>
    have he := emitted_tCmd hp
    exact (step_emitted hi he).trans (performed_of_emitted he)
  | pressureCommand m =>
    have he := emitted_pCmd hp hc
    rw [step_emitted hi he, exec_modeInstr, commandWrite, performed_of_emitted he]
  | temperatureDelay =>
    rw [step_answerPort (.inl hp) hi, answerPort, hp]
    rfl
  | pressureDelay m =>
    rw [step_answerPort (.inr (.inr (.inl hp))) hi, answerPort, hp]
    exact if_pos (by rw [mode_of_curop hc]; rfl)
  | trawEnds =>
    rw [step_answerPort (.inr (.inl hp)) hi, answerPort, hp]
    exact temperatureRead_traw hc
  | tempEnds =>
    rw [step_answerPort (.inr (.inl hp)) hi, answerPort, hp]
    exact temperatureRead_temp hc
  | pressureStarts m =>
    rw [step_answerPort (.inr (.inl hp)) hi, answerPort, hp]
    exact temperatureRead_pres hc
  | pressureEnds m =>
    rw [step_answerPort (.inr (.inr (.inr hp))) hi, answerPort, hp]
    exact pressureRead_pres hc

/-- In IDLE no request is outstanding, and an answer is refused (R266). -/
theorem step_answer_idle {a : Answer} {rest : List Input} (hp : s.phase = .idle) (hh : s.held = [])
    (hi : s.inputs = .answer a :: rest) : step s = .refused .answerNotOutstanding := by
  simp [step_input (.inr hh), runInput, hi, runAnswer, emitted_eq_none (.inl hp), answerPort, hp]

/-! ## An answer that fits the request (R61, R257) -/

theorem fits_busRead {d : DevAddr} {l : Byte} {a : Answer} (h : a.fits (.busRead d l 2) = true) :
    (∃ b0 b1, a = .bytes [b0, b1]) ∨ a = .failure := by
  cases a with
  | bytes b =>
    obtain ⟨b0, b1, rfl⟩ := List.length_eq_two.mp (of_decide_eq_true h)
    exact .inl ⟨b0, b1, rfl⟩
  | failure => exact .inr rfl
  | ok | slept => cases h

theorem fits_busWrite {d : DevAddr} {l : Byte} {bs : List Byte} {a : Answer}
    (h : a.fits (.busWrite d l bs) = true) : a = .ok ∨ a = .failure := by
  cases a with
  | ok => exact .inl rfl
  | failure => exact .inr rfl
  | bytes | slept => cases h

theorem fits_sleep {n : Nat} {a : Answer} (h : a.fits (.sleep n) = true) : a = .slept := by
  cases a with
  | slept => rfl
  | bytes | ok | failure => cases h

/-- t has taken the answer before `rest` and is nearer the operation's end than s; in IDLE it has
delivered the response (R17, R36). -/
def Nearer (s t : State) (rest : List Input) : Prop :=
  t.inputs = rest ∧ t.phase.answersLeft < s.phase.answersLeft ∧
    (t.phase = .idle → ∃ st v, t.trace = s.trace ++ [.responded st v] ∧ st ≠ .none)

theorem answersLeft_pos {p : Phase} (h : p ≠ .idle) : 0 < p.answersLeft := by
  cases p with
  | idle => exact absurd rfl h
  | initRd k => exact Nat.sub_pos_of_lt k.isLt
  | tCmd | tWait | tRd | pCmd | pWait | pRd => decide

theorem nearer_enter {p : Phase} (hp : p ≠ .idle) (hl : p.answersLeft < s.phase.answersLeft) :
    Nearer s (enter p u) u.inputs :=
  ⟨rfl, hl, fun h => absurd h hp⟩

theorem nearer_respond {st : Status} {v : Option (BitVec 64)} (hp : s.phase ≠ .idle)
    (ht : u.trace = s.trace) (hst : st ≠ .none) : Nearer s (respond st v u) u.inputs :=
  ⟨rfl, answersLeft_pos hp, fun _ => ⟨st, v, by simp [ht], hst⟩⟩

theorem nearer_raise {e : ErrorKind} (hp : s.phase ≠ .idle) (ht : u.trace = s.trace) :
    Nearer s (raise e u) u.inputs := by
  have hst : e.status ≠ .none := by cases e <;> nofun
  unfold raise
  split
  · exact nearer_respond hp ht hst
  · exact nearer_respond hp ht hst

theorem nearer_afterCalibrationWord {k : Fin 10} (hp : s.phase = .initRd k)
    (ht : u.trace = s.trace) : Nearer s (afterCalibrationWord k u) u.inputs := by
  rcases afterCalibrationWord_cases k u with ⟨l, hl, h⟩ | ⟨_, h⟩ <;> rw [h]
  · refine nearer_enter nofun ?_
    simp only [hp, Phase.answersLeft]
    omega
  · exact nearer_respond (by simp [hp]) ht nofun

section
variable {a : Answer} {rest : List Input} (hi : s.inputs = .answer a :: rest) (hp : s.phase ≠ .idle)
include hi hp

/-- A fitting answer to a read ends the operation with a failure or goes on with its word. -/
theorem readAnswer_nearer {d : DevAddr} {l : Byte} {g : Word16 → State → State}
    (ha : a.fits (.busRead d l 2) = true)
    (hg : ∀ v, Nearer s (g v { s with inputs := rest }) rest) :
    ∃ t, (readAnswer s fun v s => .next (g v s)) = .next t ∧ Nearer s t rest := by
  rcases fits_busRead ha with ⟨b0, b1, rfl⟩ | rfl
  · exact ⟨_, readAnswer_bytes hi, hg _⟩
  · exact ⟨_, readAnswer_failure hi, nearer_raise hp rfl⟩

/-- A fitting answer to a write ends the operation with a failure or goes on. -/
theorem writeAnswer_nearer {d : DevAddr} {l : Byte} {bs : List Byte} {g : State → State}
    (ha : a.fits (.busWrite d l bs) = true) (hg : Nearer s (g { s with inputs := rest }) rest) :
    ∃ t, (writeAnswer s fun s => .next (g s)) = .next t ∧ Nearer s t rest := by
  rcases fits_busWrite ha with rfl | rfl
  · exact ⟨_, writeAnswer_ok hi, hg⟩
  · exact ⟨_, writeAnswer_failure hi, nearer_raise hp rfl⟩

end

/-- A sleep's completion goes on. -/
theorem sleepAnswer_nearer {a : Answer} {rest : List Input} (hi : s.inputs = .answer a :: rest)
    {n : Nat} {g : State → State} (ha : a.fits (.sleep n) = true)
    (hg : Nearer s (g { s with inputs := rest }) rest) :
    ∃ t, (sleepAnswer s fun s => .next (g s)) = .next t ∧ Nearer s t rest := by
  obtain rfl := fits_sleep ha
  exact ⟨_, sleepAnswer_slept hi, hg⟩

/-- What a phase performs takes a fitting answer and brings the operation nearer its end. -/
theorem Performs.nearer {f : State → Outcome} {r : Request} {a : Answer} {rest : List Input}
    (h : Performs s.phase s.curop.value f) (hr : s.outstanding = some r)
    (hi : s.inputs = .answer a :: rest) (ha : a.fits r = true) :
    ∃ t, f s = .next t ∧ Nearer s t rest := by
  have hne : s.phase ≠ .idle := fun hidle => by simp [outstanding_idle hidle] at hr
  have request {q : Request} (hq : s.outstanding = some q) : a.fits q = true := by
    obtain rfl : r = q := Option.some.inj (hr.symm.trans hq)
    exact ha
  have left {p q : Phase} (hp : s.phase = p) (hq : q.answersLeft < p.answersLeft) :
      q.answersLeft < s.phase.answersLeft := hp ▸ hq
  generalize hp : s.phase = p at h
  generalize hc : s.curop.value = w at h
  cases h with
  | calibrationWord k =>
    exact readAnswer_nearer hi hne (request (outstanding_initRd hp)) fun _ =>
      nearer_afterCalibrationWord hp rfl
  | temperatureCommand =>
    exact writeAnswer_nearer hi hne (request (outstanding_tCmd hp))
      (nearer_enter nofun (left hp (by decide)))
  | pressureCommand m =>
    exact writeAnswer_nearer hi hne (request (outstanding_pCmd hp hc))
      (nearer_enter nofun (left hp (by decide)))
  | temperatureDelay =>
    exact sleepAnswer_nearer hi (request (outstanding_tWait hp))
      (nearer_enter nofun (left hp (by decide)))
  | pressureDelay m =>
    exact sleepAnswer_nearer hi (request (outstanding_pWait hp hc))
      (nearer_enter nofun (left hp (by decide)))
  | pressureStarts m =>
    exact readAnswer_nearer hi hne (request (outstanding_tRd hp)) fun _ =>
      nearer_enter nofun (left hp (by decide))
  | trawEnds | tempEnds =>
    exact readAnswer_nearer hi hne (request (outstanding_tRd hp)) fun _ =>
      nearer_respond hne rfl nofun
  | pressureEnds m =>
    exact readAnswer_nearer hi hne (request (outstanding_pRd hp)) fun _ =>
      nearer_respond hne rfl nofun

/-- Settles O60: under the invariant a step performs what the phase performs. -/
theorem fittingAnswersEndTheOperation : Obligations.FittingAnswersEndTheOperation := by
  intro s r a rest hs hr hi ha
  obtain ⟨f, hf⟩ := hs.performs fun hidle => by simp [outstanding_idle hidle] at hr
  rw [step_performs hf hi]
  exact hf.nearer hr hi ha

end Sys2Proof.Machine

/-! PROOFS. Under the invariant no register without a value is read, and the only fault is that of a
waiting engine (R44, R79). -/

namespace Sys2Proof.Machine

open Sys2Proof

variable {s t u : State}

/-! ## Faults -/

section
variable {a : Answer} {rest : List Input} (hi : s.inputs = .answer a :: rest) (x : Fault)
include hi

/-- With an answer at hand a read that goes on to a next state does not fault. -/
theorem readAnswer_ne_fault (g : Word16 → State → State) :
    (readAnswer s fun v s => .next (g v s)) ≠ .fault x := by
  rw [readAnswer, hi]
  match a with
  | .bytes [] | .bytes [_] | .bytes [_, _] | .bytes (_ :: _ :: _ :: _) | .ok | .failure | .slept =>
    nofun

theorem writeAnswer_ne_fault (g : State → State) :
    (writeAnswer s fun s => .next (g s)) ≠ .fault x := by
  rw [writeAnswer, hi]
  cases a <;> nofun

theorem sleepAnswer_ne_fault (g : State → State) :
    (sleepAnswer s fun s => .next (g s)) ≠ .fault x := by
  rw [sleepAnswer, hi]
  cases a <;> nofun

/-- With an answer at hand what a phase performs does not fault. -/
theorem Performs.ne_fault {p : Phase} {w : Byte} {f : State → Outcome} (h : Performs p w f) :
    f s ≠ .fault x := by
  cases h with
  | calibrationWord | trawEnds | tempEnds | pressureStarts | pressureEnds =>
    exact readAnswer_ne_fault hi x _
  | temperatureCommand | pressureCommand => exact writeAnswer_ne_fault hi x _
  | temperatureDelay | pressureDelay => exact sleepAnswer_ne_fault hi x _

end

/-- Acceptance does not fault. -/
theorem runRequest_ne_fault (w : Byte) (hp : s.phase = .idle) (x : Fault) :
    runRequest w s ≠ .fault x := by
  unfold runRequest
  split
  · next i hd =>
    obtain ⟨_, hf⟩ := decodeByte_hostOp_some hd
    by_cases hi : i = .init
    · rw [hi, exec, execInit, requested_idle hp]
      split <;> nofun
    · rw [exec_conversion hf hi, requested_idle hp, startConversion]
      split <;> nofun
  · nofun

theorem readPort_ne_fault (r : HostRead) (s : State) (x : Fault) : readPort r s ≠ .fault x := by
  cases r with
  | status | rvalid | calValid | busy => nofun
  | result | cal k =>
    rw [readPort]
    split <;> nofun

/-- An input that is no answer does not fault. -/
theorem runInput_fault {x : Fault} (h : runInput s = .fault x) :
    (s.inputs = [] ∧ s.phase ≠ .idle ∧ x = .stuck) ∨ ∃ a rest, s.inputs = .answer a :: rest := by
  unfold runInput at h
  split at h
  · next hi =>
    unfold noInput at h
    split at h
    · next hb =>
      cases h
      exact .inl ⟨hi, by simpa using hb, rfl⟩
    · cases h
  · next a rest hi => exact .inr ⟨a, rest, hi⟩
  · cases h
  · next r rest hi =>
    unfold hostRead at h
    split at h
    · cases h
    · next hx => exact absurd hx (readPort_ne_fault _ _ _)
    · cases h
  · unfold lateAnswer at h
    split at h <;> cases h
  · cases h

/-- The next step accepts a held request, or it takes an input. -/
theorem held_or_input (s : State) : (s.phase = .idle ∧ ∃ w rest, s.held = w :: rest) ∨
    (s.phase ≠ .idle ∨ s.held = []) := by
  by_cases hp : s.phase = .idle
  · cases hh : s.held with
    | nil => exact .inr (.inr rfl)
    | cons w rest => exact .inl ⟨hp, w, rest, rfl⟩
  · exact .inr (.inl hp)

theorem Inv.fault {x : Fault} (hs : Inv s) (h : step s = .fault x) :
    x = .stuck ∧ s.phase ≠ .idle ∧ s.inputs = [] := by
  rcases held_or_input s with ⟨hp, w, rest, hh⟩ | hin
  · rw [step_held hp hh] at h
    exact absurd h (runRequest_ne_fault (s := { s with held := rest }) w hp x)
  · rcases runInput_fault ((step_input hin).symm.trans h) with ⟨hi, hp, hx⟩ | ⟨a, rest, hi⟩
    · exact ⟨hx, hp, hi⟩
    · by_cases hp : s.phase = .idle
      · rw [step_answer_idle hp (hin.resolve_left (not_not.mpr hp)) hi] at h
        cases h
      · obtain ⟨f, hf⟩ := hs.performs hp
        rw [step_performs hf hi] at h
        exact absurd h (hf.ne_fault hi x)

/-! ## What is seen of a state without the bits that are no value

In each lemma an operation on a state, and on what is seen of the state, gives the same to see. -/

@[simp] theorem forget_holds {w : Nat} (r : Register w) : r.forget.holds = r.holds := by
  rcases r with ⟨v, b⟩; cases b <;> rfl

@[simp] theorem forget_comp_forget {w : Nat} :
    (Register.forget ∘ Register.forget : Register w → Register w) = Register.forget :=
  funext forget_forget

@[simp] theorem State.forget_forget (s : State) : s.forget.forget = s.forget := by
  simp [State.forget]

theorem forget_accept (w : Byte) (s : State) :
    (accept w s).forget = (accept w s.forget).forget := by
  simp [State.forget, accept, State.lostResult]

theorem forget_respond (st : Status) (v : Option (BitVec 64)) (s : State) :
    (respond st v s).forget = (respond st v s.forget).forget := by
  cases v <;> simp [State.forget, respond, State.lostResult]

theorem forget_clearCalibration (s : State) :
    (clearCalibration s).forget = (clearCalibration s.forget).forget := by
  simp [State.forget, clearCalibration, State.lostCalibration]

theorem forget_raise (e : ErrorKind) (s : State) :
    (raise e s).forget = (raise e s.forget).forget := by
  unfold raise
  rw [show s.forget.phase = s.phase from rfl]
  split
  · rw [forget_respond, forget_clearCalibration, ← forget_respond]
  · exact forget_respond _ _ _

theorem forget_writeCalibration (k : Fin 10) (w : Word16) (s : State) :
    (writeCalibration k w s).forget = (writeCalibration k w s.forget).forget := by
  simp [State.forget, writeCalibration]

/-- A request depends on the phase and on CUROP alone (R35). -/
theorem outstanding_congr (hp : u.phase = s.phase) (hc : u.curop = s.curop) :
    u.outstanding = s.outstanding := by
  simp [State.outstanding, State.emitted, State.mode, hp, hc]

theorem forget_enter (p : Phase) (hc : s.curop.holds = true) :
    (enter p s).forget = (enter p s.forget).forget := by
  have hr : State.outstanding { s.forget with phase := p } =
      State.outstanding { s with phase := p } := outstanding_congr rfl (forget_of_holds hc)
  simpa [State.forget, enter] using congrArg (fun r => r.toList.map Event.issued) hr.symm

theorem forget_afterCalibrationWord (k : Fin 10) (hc : s.curop.holds = true) :
    (afterCalibrationWord k s).forget = (afterCalibrationWord k s.forget).forget := by
  unfold afterCalibrationWord
  split
  · exact forget_enter _ hc
  · exact forget_respond .ok none { s with calValid := true }

/-- A calibration word is written and what comes after it is done (R155). -/
theorem forget_calibrationWord (k : Fin 10) (w : Word16) (hc : s.curop.holds = true) :
    (afterCalibrationWord k (writeCalibration k w s)).forget =
      (afterCalibrationWord k (writeCalibration k w s.forget)).forget := by
  have hs : (writeCalibration k w s).curop.holds = true := hc
  have hf : (writeCalibration k w s.forget).curop.holds = true := (forget_holds _).trans hc
  rw [forget_afterCalibrationWord k hs, forget_writeCalibration, ← forget_afterCalibrationWord k hf]

theorem coefficient_forget {k : Fin 10} (h : s.calw[k].holds = true) :
    s.forget.coefficient k = s.coefficient k := by
  have hk : s.calw[k].forget = s.calw[k] := forget_of_holds h
  simp only [State.coefficient, State.forget, Fin.getElem_fin, Vector.getElem_map] at hk ⊢
  rw [hk]

theorem forget_endTemperature (f : Int → BitVec 64)
    (hw : ∀ k : Fin 10, s.calw[k].holds = true) (ht : s.tr.holds = true) :
    (endTemperature f s).forget = (endTemperature f s.forget).forget := by
  have htr : s.forget.tr = s.tr := forget_of_holds ht
  rw [endTemperature_eq, endTemperature_eq, coefficient_forget (hw 0), coefficient_forget (hw 1),
    htr, forget_respond]

theorem forget_endPressure (hw : ∀ k : Fin 10, s.calw[k].holds = true) (ht : s.tr.holds = true)
    (hp : s.praw.holds = true) : (endPressure s).forget = (endPressure s.forget).forget := by
  have htr : s.forget.tr = s.tr := forget_of_holds ht
  have hpraw : s.forget.praw = s.praw := forget_of_holds hp
  have hv : s.forget.pressure = s.pressure := by
    simp only [State.pressure, coefficient_forget (hw _), htr, hpraw]
  rw [endPressure_eq, endPressure_eq, hv, forget_respond]

/-! ## Taking an answer -/

theorem readAnswer_forget {g : Word16 → State → State}
    (hg : ∀ v rest, (g v { s with inputs := rest }).forget =
      (g v (State.forget { s with inputs := rest })).forget) :
    forgetOutcome (readAnswer s fun v s => .next (g v s)) =
      forgetOutcome (readAnswer s.forget fun v s => .next (g v s)) := by
  unfold readAnswer
  rw [show s.forget.inputs = s.inputs from rfl]
  split
  · exact congrArg Host.Outcome.next (hg _ _)
  · rfl
  · exact congrArg Host.Outcome.next (forget_raise _ _)
  all_goals rfl

theorem writeAnswer_forget {g : State → State}
    (hg : ∀ rest, (g { s with inputs := rest }).forget =
      (g (State.forget { s with inputs := rest })).forget) :
    forgetOutcome (writeAnswer s fun s => .next (g s)) =
      forgetOutcome (writeAnswer s.forget fun s => .next (g s)) := by
  unfold writeAnswer
  rw [show s.forget.inputs = s.inputs from rfl]
  split
  · exact congrArg Host.Outcome.next (hg _)
  · exact congrArg Host.Outcome.next (forget_raise _ _)
  all_goals rfl

theorem sleepAnswer_forget {g : State → State}
    (hg : ∀ rest, (g { s with inputs := rest }).forget =
      (g (State.forget { s with inputs := rest })).forget) :
    forgetOutcome (sleepAnswer s fun s => .next (g s)) =
      forgetOutcome (sleepAnswer s.forget fun s => .next (g s)) := by
  unfold sleepAnswer
  rw [show s.forget.inputs = s.inputs from rfl]
  split
  · exact congrArg Host.Outcome.next (hg _)
  all_goals rfl

/-- Under the invariant what a phase performs reads no register without a value: CUROP holds the opword,
a compute has its calibration words and its samples (R37, R38, R252). -/
theorem Performs.forget {f : State → Outcome} (h : Performs s.phase s.curop.value f) (hs : Inv s)
    (hb : s.phase ≠ .idle) :
    forgetOutcome (f s) = forgetOutcome (f s.forget) := by
  have hc : s.curop.holds = true := hs.curop_holds hb
  have words {p : Phase} (hp : s.phase = p) (hconv : p.isConversion = true) (k : Fin 10) :
      s.calw[k].holds = true := hs.calibrated (hs.gate (hp ▸ hconv)) k
  generalize hp : s.phase = p at h
  generalize s.curop.value = w at h
  cases h with
  | calibrationWord k =>
    exact readAnswer_forget fun v rest =>
      forget_calibrationWord (s := { s with inputs := rest }) k v hc
  | temperatureCommand | pressureCommand => exact writeAnswer_forget fun _ => forget_enter _ hc
  | temperatureDelay | pressureDelay => exact sleepAnswer_forget fun _ => forget_enter _ hc
  | trawEnds | tempEnds =>
    exact readAnswer_forget fun v rest =>
      forget_endTemperature (s := { s with inputs := rest, tr := .written v }) _ (words hp rfl) rfl
  | pressureStarts m =>
    exact readAnswer_forget fun v rest =>
      forget_enter (s := { s with inputs := rest, tr := .written v }) _ hc
  | pressureEnds m =>
    exact readAnswer_forget fun v rest =>
      forget_endPressure (s := { s with inputs := rest, praw := .written v }) (words hp rfl)
        (hs.latched (by rw [hp]; rfl)) rfl

/-! ## Acceptance and the other inputs -/

theorem forget_enter_accept (p : Phase) (w : Byte) (s : State) :
    (enter p (accept w s)).forget = (enter p (accept w s.forget)).forget := by
  rw [forget_enter p (by rfl), forget_accept, ← forget_enter p (by rfl)]

theorem startConversion_forget (w : Byte) (s : State) :
    forgetOutcome (startConversion w s) = forgetOutcome (startConversion w s.forget) := by
  unfold startConversion
  rw [show s.forget.calValid = s.calValid from rfl]
  split
  · exact congrArg Host.Outcome.next (forget_enter_accept _ w s)
  · refine congrArg Host.Outcome.next ?_
    rw [forget_raise, forget_accept, ← forget_raise]

/-- Acceptance reads no register but CAL_VALID (R36, R252). -/
theorem runRequest_forget (w : Byte) (hp : s.phase = .idle) :
    forgetOutcome (runRequest w s) = forgetOutcome (runRequest w s.forget) := by
  have hp' : s.forget.phase = .idle := hp
  unfold runRequest
  split
  · next i hd =>
    obtain ⟨_, hf⟩ := decodeByte_hostOp_some hd
    by_cases hi : i = .init
    · rw [hi, exec, exec, execInit, execInit, requested_idle hp, requested_idle hp',
        show s.forget.calValid = s.calValid from rfl]
      split
      · rfl
      · exact congrArg Host.Outcome.next (forget_enter_accept _ _ s)
    · rw [exec_conversion hf hi, exec_conversion hf hi, requested_idle hp, requested_idle hp',
        startConversion_forget]
  · rfl

/-- The host's reads are given values alone: RESULT while RVALID = 1, and a coefficient while CAL_VALID = 1
(R45, R266). -/
theorem Inv.readPort_forget (hs : Inv s) (r : HostRead) : readPort r s.forget = readPort r s := by
  cases r with
  | status | rvalid | calValid | busy => rfl
  | result =>
    rw [readPort, readPort, show s.forget.rvalid = s.rvalid from rfl]
    split
    · next hv =>
      have hr : s.forget.result = s.result := forget_of_holds (hs.resultValid.symm.trans hv)
      rw [hr]
    · rfl
  | cal k =>
    simp only [readPort, show s.forget.calValid = s.calValid from rfl]
    split
    · next h =>
      obtain ⟨hv, _⟩ := h
      rw [coefficient_forget (hs.calibrated hv _)]
    · rfl

/-- Under the invariant an input that is no answer acts on no register without a value (R44). -/
theorem Inv.runInput_forget (hs : Inv s) (hi : ∀ a rest, s.inputs ≠ .answer a :: rest) :
    forgetOutcome (runInput s) = forgetOutcome (runInput s.forget) := by
  have seen (u : State) : forgetOutcome (.next u) = forgetOutcome (.next u.forget) :=
    congrArg Host.Outcome.next u.forget_forget.symm
  unfold runInput
  rw [show s.forget.inputs = s.inputs from rfl]
  split
  · unfold noInput
    rw [show s.forget.busy = s.busy from rfl]
    split
    · rfl
    · exact seen s
  · next a rest hin => exact absurd hin (hi a rest)
  · next w rest _ => exact seen (hold w { s with inputs := rest })
  · next r rest _ =>
    simp only [hostRead, readPort_inputs, hs.readPort_forget]
    split
    · next v _ => exact seen (emit (.gave r v) { s with inputs := rest })
    all_goals rfl
  · next rest _ =>
    unfold lateAnswer
    rw [show s.forget.abandoned = s.abandoned from rfl]
    split
    · exact seen { s with inputs := rest, abandoned := s.abandoned - 1 }
    · rfl
  · rfl

/-- Under the invariant no step reads a register without a value (R44). -/
theorem Inv.step_forget (hs : Inv s) : forgetOutcome (step s) = forgetOutcome (step s.forget) := by
  rcases held_or_input s with ⟨hp, w, rest, hh⟩ | hin
  · rw [step_held hp hh, step_held (s := s.forget) hp hh]
    exact runRequest_forget (s := { s with held := rest }) w hp
  by_cases ha : ∃ a rest, s.inputs = .answer a :: rest
  · obtain ⟨a, rest, hi⟩ := ha
    by_cases hp : s.phase = .idle
    · have hh : s.held = [] := hin.resolve_left (not_not.mpr hp)
      rw [step_answer_idle hp hh hi, step_answer_idle (s := s.forget) hp hh hi]
    · obtain ⟨f, hf⟩ := hs.performs hp
      have hc : s.forget.curop = s.curop := forget_of_holds (hs.curop_holds hp)
      rw [step_performs hf hi, step_performs (s := s.forget) (hc ▸ hf) hi]
      exact hf.forget hs hp
  · rw [step_input hin, step_input (s := s.forget) hin]
    exact hs.runInput_forget fun a rest hi => ha ⟨a, rest, hi⟩

/-- Settles O50: under the invariant every answer is taken by its phase, and each register that is read
holds a value. -/
theorem onlyAWaitingEngineFaults : Obligations.OnlyAWaitingEngineFaults :=
  ⟨fun _ _ hs h => hs.fault h, fun _ hs => hs.step_forget⟩

end Sys2Proof.Machine

/-! PROOFS. The requests the engine issues (R64, R65, R94, R291), the settle delay before a data read (R73,
R286), and the engine that waits for an answer (R79). -/

namespace Sys2Proof.Machine

open Sys2Proof

variable {s t : State}

/-! ## The listed requests -/

/-- In P_CMD and P_WAIT a request is outstanding only with a PRES opword in CUROP (R35, R211). -/
theorem curop_of_outstanding {r : Request} (hp : s.phase = .pCmd ∨ s.phase = .pWait)
    (hr : s.outstanding = some r) : ∃ m, s.curop.value = presOpword m := by
  cases hm : s.mode with
  | none => rcases hp with hp | hp <;> simp [State.outstanding, State.emitted, hp, hm] at hr
  | some m => exact ⟨m, opwordMode_eq_some.mp hm⟩

/-- Every phase waits on a listed request (R64, R94, R291). -/
theorem mem_allowedRequests_of_outstanding {r : Request} (hr : s.outstanding = some r) :
    r ∈ allowedRequests := by
  have listed {q : Request} (hq : s.outstanding = some q) (hmem : q ∈ allowedRequests) :
      r ∈ allowedRequests := by
    obtain rfl : q = r := Option.some.inj (hq.symm.trans hr)
    exact hmem
  cases hp : s.phase with
  | idle => simp [outstanding_idle hp] at hr
  | initRd k =>
    exact listed (outstanding_initRd hp)
      (List.mem_append_left _ (List.mem_map_of_mem (List.mem_finRange k)))
  | tCmd => exact listed (outstanding_tCmd hp) (by decide)
  | tWait => exact listed (outstanding_tWait hp) (by decide)
  | tRd => exact listed (outstanding_tRd hp) (by decide)
  | pCmd =>
    obtain ⟨m, hm⟩ := curop_of_outstanding (.inl hp) hr
    exact listed (outstanding_pCmd hp hm) (by cases m <;> decide)
  | pWait =>
    obtain ⟨m, hm⟩ := curop_of_outstanding (.inr hp) hr
    exact listed (outstanding_pWait hp hm) (by cases m <;> decide)
  | pRd => exact listed (outstanding_pRd hp) (by decide)

/-- A write is of one byte to the sensor's command register; a read is of two bytes from another of its
registers (R65). -/
def usesItsRegister : Request → Bool
  | .busWrite device location bytes => device == 0x77 && location == 0xF1 && bytes.length == 1
  | .busRead device location n => device == 0x77 && location != 0xF1 && n == 2
  | .sleep _ => true

theorem usesItsRegister_of_mem : ∀ r ∈ allowedRequests, usesItsRegister r = true := by decide

/-- Settles O55: a request is issued only on entering the phase that waits on it, and what a phase waits
on is listed. -/
theorem onlyTheListedRequestsAreIssued : Obligations.OnlyTheListedRequestsAreIssued := by
  refine ⟨fun s t h => ?_, fun r hr device location n bytes => ?_⟩
  · obtain ⟨hentered, hother⟩ := oneRequestIsOutstanding s t h
    by_cases hp : t.phase = s.phase ∨ t.phase = .idle
    · obtain ⟨new, ht, hnone⟩ := hother hp
      exact ⟨new, ht, by simp [hnone]⟩
    · obtain ⟨hne, hidle⟩ := not_or.mp hp
      obtain ⟨r, hr, ht⟩ := hentered hne hidle
      refine ⟨[.issued r], ht, fun q hq => ?_⟩
      obtain rfl : q = r := List.mem_singleton.mp hq
      exact mem_allowedRequests_of_outstanding hr
  · have huse := usesItsRegister_of_mem r hr
    constructor <;> rintro rfl <;> simpa [usesItsRegister, and_assoc] using huse

/-! ## The settle delay -/

/-- After a calibration word no read of the data register follows (R155). -/
theorem afterCalibrationWord_not_dataRead (k : Fin 10) (s : State) :
    (afterCalibrationWord k s).phase ≠ .tRd ∧ (afterCalibrationWord k s).phase ≠ .pRd := by
  rcases afterCalibrationWord_cases k s with ⟨l, _, h⟩ | ⟨_, h⟩ <;> rw [h]
  · exact ⟨nofun, nofun⟩
  · exact ⟨nofun, nofun⟩

/-- A data read is entered from the wait before it, by the sleep's completion (R73). -/
theorem Transition.dataRead (h : Transition s t) :
    t.phase = s.phase ∨ (t.phase ≠ .tRd ∧ t.phase ≠ .pRd) ∨
    (((s.phase = .tWait ∧ t.phase = .tRd) ∨ (s.phase = .pWait ∧ t.phase = .pRd)) ∧
      s.inputs.head? = some (.answer .slept)) := by
  cases h with
  | temperatureDelayDone rest hp hi => exact .inr (.inr ⟨.inl ⟨hp, rfl⟩, by rw [hi]; rfl⟩)
  | pressureDelayDone m rest hp hm hi => exact .inr (.inr ⟨.inr ⟨hp, rfl⟩, by rw [hi]; rfl⟩)
  | calibrationWord k => exact .inr (.inl (afterCalibrationWord_not_dataRead k _))
  | uninitialized | failed => exact .inr (.inl (by simp))
  | initAccepted | conversionAccepted | temperatureCommand | pressureCommand | pressureStarts
  | temperatureEnds | pressureEnds | resetTaken => exact .inr (.inl ⟨nofun, nofun⟩)
  | requestArrives | portRead | lateAnswerDropped | rests => exact .inl rfl

/-- Settles O57: of the transitions only the two completed delays enter a data read. -/
theorem dataReadWaitsForTheDelay : Obligations.DataReadWaitsForTheDelay := by
  intro s t h hne
  rcases (step_transition h).dataRead with hp | ⟨ht, hp⟩ | ⟨⟨hs, ht⟩ | ⟨hs, ht⟩, hi⟩
  · exact absurd hp hne
  · exact ⟨fun h => absurd h ht, fun h => absurd h hp⟩
  · exact ⟨fun _ => ⟨hs, hi⟩, fun h => by simp [ht] at h⟩
  · exact ⟨fun h => by simp [ht] at h, fun _ => ⟨hs, hi⟩⟩

/-- A completed sleep enters the phase that its wait names (R73). -/
theorem step_slept {p : Phase} {r : Request} {rest : List Input}
    (h : Performs s.phase s.curop.value fun s => sleepAnswer s fun s => .next (enter p s))
    (hi : s.inputs = .answer .slept :: rest)
    (hr : State.outstanding { s with inputs := rest, phase := p } = some r) :
    step s = .next { s with inputs := rest, phase := p, trace := s.trace ++ [.issued r] } := by
  rw [step_performs h hi, sleepAnswer_slept hi, enter_eq (s := { s with inputs := rest }) hr]

/-- Settles O32: each wait names its data read, whose request is the read of the data register. -/
theorem delayIsFollowedByTheDataRead : Obligations.DelayIsFollowedByTheDataRead := by
  refine ⟨fun s rest hp hi => ?_, fun s m rest hp hm hi => ?_⟩
  · exact step_slept (by rw [hp]; exact .temperatureDelay _) hi (outstanding_tRd rfl)
  · exact step_slept (by rw [hp, hm]; exact .pressureDelay m) hi (outstanding_pRd rfl)

/-! ## No input to come -/

/-- With no input to come and no request to accept, a step finds no input. -/
theorem step_noInput (hp : s.phase ≠ .idle ∨ s.held = []) (hi : s.inputs = []) :
    step s = noInput s := by
  rw [step_input hp, runInput, hi]

/-- Settles O38: BUSY decides between the stuck engine and the idle one. -/
theorem unansweredRequestIsStuck : Obligations.UnansweredRequestIsStuck := by
  refine fun s hi => ⟨fun hp => ?_, fun hp hh => ?_⟩
  · rw [step_noInput (.inl hp) hi]
    exact if_pos ((busy_eq_true s).mpr hp)
  · rw [step_noInput (.inr hh) hi]
    exact if_neg (by simp [hp])

end Sys2Proof.Machine

/-! PROOFS. The encodings (R90 to R97, R101, R102): the three decoders, the opwords of PRES, the calibration
locations, the assembler, and what becomes of a received word. -/

namespace Sys2Proof.Machine

open Sys2Proof

variable {s t : State}

/-! ## The decoders -/

/-- The table of a format holds that format's instructions, each with all bits of its byte fixed (R91, R94,
R96). -/
theorem rows_spec (f : Format) :
    ∀ r ∈ f.rows, r.mask = 0xFF ∧ r.instr.format = f ∧ r.value = r.instr.byte := by
  cases f <;> decide

theorem holds_of_mem_rows {f : Format} {r : Row} (hr : r ∈ f.rows) (b : Byte) :
    r.holds b = true ↔ b = r.value := by
  obtain ⟨hmask, _⟩ := rows_spec f r hr
  rw [Row.holds, hmask, beq_iff_eq, show (0xFF : Byte) = BitVec.allOnes 8 from rfl,
    BitVec.and_allOnes]

theorem decodeByte_eq_some {f : Format} {b : Byte} {i : Instr} (h : decodeByte f b = some i) :
    i.format = f ∧ b = i.byte := by
  obtain ⟨r, hfind, rfl⟩ := Option.map_eq_some_iff.mp h
  have hmem := List.mem_of_find?_eq_some hfind
  have hb : b = r.value := (holds_of_mem_rows hmem b).mp (by simpa using List.find?_some hfind)
  obtain ⟨_, hformat, hvalue⟩ := rows_spec f r hmem
  exact ⟨hformat, hb.trans hvalue⟩

theorem decodeByte_eq_none {f : Format} {b : Byte} :
    decodeByte f b = none ↔ b ∉ f.rows.map Row.value := by
  rw [decodeByte, Option.map_eq_none_iff, List.find?_eq_none, List.mem_map]
  constructor
  · rintro h ⟨r, hr, rfl⟩
    exact h r hr ((holds_of_mem_rows hr _).mpr rfl)
  · intro h r hr hb
    exact h ⟨r, hr, ((holds_of_mem_rows hr b).mp hb).symm⟩

theorem decode_encode (i : Instr) (rest : List Byte) :
    decode i.format (encode i ++ rest) = some (i, rest) := by
  rw [encode, List.singleton_append, decode, decodeByte_byte, Option.map_some]

theorem decode_eq_some {f : Format} {bs rest : List Byte} {i : Instr}
    (h : decode f bs = some (i, rest)) : i.format = f ∧ bs = encode i ++ rest := by
  cases bs with
  | nil => cases h
  | cons b tail =>
    obtain ⟨j, hj, heq⟩ := Option.map_eq_some_iff.mp h
    obtain ⟨rfl, rfl⟩ := Prod.mk.inj heq
    obtain ⟨hformat, rfl⟩ := decodeByte_eq_some hj
    exact ⟨hformat, rfl⟩

/-- Settles O1: a row fixes every bit of its byte, so its byte is the only one that decodes to it. -/
theorem decodeAndEncodeAgree : Obligations.DecodeAndEncodeAgree :=
  ⟨decode_encode, fun _ _ _ _ => decode_eq_some⟩

/-- Settles O4: each word is the encoding of its row. -/
theorem writtenOutWordsDecode : Obligations.WrittenOutWordsDecode :=
  ⟨decode_encode .init [], decode_encode .traw [], decode_encode .presUltra [],
    decode_encode .sensorCmdTemp [], decode_encode .sensorCmdHigh [], decode_encode .calAddrC1 [],
    decode_encode .calAddrC10 []⟩

/-- A held reserved opword is refused at its turn (R93). -/
theorem step_reservedOpword {w : Byte} {rest : List Byte} (hp : s.phase = .idle)
    (hh : s.held = w :: rest) (hd : decodeByte .hostOp w = none) :
    step s = .refused (.reservedOpword w) := by
  rw [step_held hp hh, runRequest, hd]

/-- Settles O2: an opword is reserved exactly when no row of R91 has its value. -/
theorem reservedOpwordIsRefused : Obligations.ReservedOpwordIsRefused :=
  ⟨fun _ => decodeByte_eq_none, by decide +kernel, fun _ _ _ => step_reservedOpword⟩

/-! ## The constants of the sensor -/

/-- Settles O3: the opword of PRES is the only one of its mode. -/
theorem presOpwordCarriesTheModeByte : Obligations.PresOpwordCarriesTheModeByte := by
  refine ⟨⟨rfl, rfl, rfl, rfl, fun m => ?_⟩,
    fun m => ⟨?_, opwordMode_presOpword m, ?_⟩, fun w m => opwordMode_eq_some.mp⟩
  all_goals cases m <;> rfl

theorem calInstr_byte (k : Fin 10) : (calInstr k).byte = calAddr k := by
  revert k; decide

/-- No location leaves the byte (R96). -/
theorem calAddr_toNat (k : Fin 10) : (calAddr k).toNat = 0x8E + 2 * k.val := by
  rw [calAddr, BitVec.toNat_ofNat]
  omega

/-- Settles O5: the table's bytes are the formula's. -/
theorem calibrationLocations : Obligations.CalibrationLocations :=
  ⟨fun k => ⟨calInstr_byte k, calAddr_toNat k⟩, by decide⟩

/-! ## The assembler -/

theorem parseReadCal_eq_some {cs : List Char} {l : HostLine} (h : parseReadCal cs = some l) :
    ∃ k, l = .read (.cal k) := by
  simp only [parseReadCal] at h
  split at h
  · obtain ⟨k, _, rfl⟩ := Option.map_eq_some_iff.mp h
    exact ⟨k, rfl⟩
  · cases h

/-- A line is one of the written-out lines, or a read of a coefficient (R101). -/
theorem parseLine_eq_some {line : List Char} {l : HostLine} (h : parseLine line = some l) :
    (∃ m, (m, l) ∈ plainLines ∧ stripLine line = m.toList) ∨ ∃ k, l = .read (.cal k) := by
  simp only [parseLine] at h
  split at h
  · next p hp =>
    obtain rfl := Option.some.inj h
    have hline : p.1.toList = stripLine line := by simpa using List.find?_some hp
    exact .inl ⟨p.1, List.mem_of_find?_eq_some hp, hline.symm⟩
  · exact .inr (parseReadCal_eq_some h)

theorem opword_eq_some {l : HostLine} {w : Byte} (h : l.opword = some w) :
    l = .pres ∨ ∃ i : Instr, l = .op i ∧ i.format = .hostOp ∧ w = i.byte := by
  cases l with
  | op i =>
    obtain ⟨hformat, hw⟩ := Option.ite_none_right_eq_some.mp h
    exact .inr ⟨i, rfl, hformat, (Option.some.inj hw).symm⟩
  | pres => exact .inl rfl
  | read r => cases h

/-- `PRES` and the seven mnemonics are the written-out lines that issue an operation (R101, R102). -/
theorem opword_plainLines : ∀ p ∈ plainLines, ∀ w ∈ p.2.opword,
    (p.1, w) ∈ [("PRES", 0x81#8), ("INIT", 0x01), ("TRAW", 0x02), ("TEMP", 0x03),
      ("PRES.LOW", 0x80), ("PRES.STANDARD", 0x81), ("PRES.HIGH", 0x90), ("PRES.ULTRA", 0x91)] := by
  decide

/-- Settles O6: the written-out lines that have an opword are `PRES` and the seven mnemonics, and a read
of a coefficient has none. -/
theorem defaultModeIsStandard : Obligations.DefaultModeIsStandard := by
  refine ⟨by decide +kernel, rfl, by decide +kernel,
    fun line l w hl hw => ⟨?_, opword_eq_some hw⟩⟩
  rcases parseLine_eq_some hl with ⟨m, hm, hline⟩ | ⟨k, rfl⟩
  · exact ⟨m, hline, opword_plainLines (m, l) hm w hw⟩
  · cases hw

/-! ## Received words -/

theorem word16_eq_append (b0 b1 : Byte) : word16 b0 b1 = b1 ++ b0 := by
  apply BitVec.eq_of_toNat_eq
  rw [word16, BitVec.toNat_ofNat, BitVec.toNat_append,
    ← Nat.shiftLeft_add_eq_or_of_lt b0.isLt, Nat.shiftLeft_eq]
  exact Nat.mod_eq_of_lt (by omega)

theorem afterCalibrationWord_calw (k : Fin 10) (s : State) :
    (afterCalibrationWord k s).calw = s.calw := by
  unfold afterCalibrationWord; split <;> rfl

/-- A two-byte answer goes as one word to the register of the phase that takes it (R155, R183, R211). -/
theorem Transition.takesWord {b0 b1 : Byte} {rest : List Input} (h : Transition s t)
    (hi : s.inputs = .answer (.bytes [b0, b1]) :: rest) :
    (∀ k : Fin 10, s.phase = .initRd k → t.calw[k] = .written (word16 b0 b1)) ∧
    (s.phase = .tRd → t.tr = .written (word16 b0 b1)) ∧
    (s.phase = .pRd → t.praw = .written (word16 b0 b1)) := by
  have hword {c0 c1 : Byte} {r : List Input} (hc : s.inputs = .answer (.bytes [c0, c1]) :: r) :
      word16 c0 c1 = word16 b0 b1 := by
    simp only [hi, List.cons.injEq, Input.answer.injEq, Answer.bytes.injEq] at hc
    obtain ⟨⟨rfl, rfl, _⟩, _⟩ := hc
    rfl
  cases h with
  | calibrationWord k c0 c1 r hp hc =>
    refine ⟨fun l hl => ?_, by simp [hp], by simp [hp]⟩
    obtain rfl : k = l := Phase.initRd.inj (hp.symm.trans hl)
    simp [afterCalibrationWord_calw, hword hc]
  | temperatureEnds f c0 c1 r hp hf hc | pressureStarts m c0 c1 r hp hm hc =>
    exact ⟨by simp [hp], fun _ => congrArg Register.written (hword hc), by simp [hp]⟩
  | pressureEnds m c0 c1 r hp hm hc =>
    exact ⟨by simp [hp], by simp [hp], fun _ => congrArg Register.written (hword hc)⟩
  | initAccepted r hp | conversionAccepted w r hp | uninitialized w r hp | rests hp => simp [hp]
  | failed r hp hc | temperatureCommand r hp hc | pressureCommand m r hp hm hc
  | temperatureDelayDone r hp hc | pressureDelayDone m r hp hm hc | requestArrives w r hp hc
  | portRead p v r hp hc | lateAnswerDropped r hp hc | resetTaken r hp hc => simp [hi] at hc

/-- Settles O7: the word is the second byte before the first. -/
theorem receivedWordsAreLittleEndian : Obligations.ReceivedWordsAreLittleEndian := by
  refine ⟨fun b0 b1 => ?_, fun s t b0 b1 rest hi h => (step_transition h).takesWord hi⟩
  rw [word16_eq_append]
  exact ⟨BitVec.extractLsb'_append_eq_right, BitVec.extractLsb'_append_eq_left,
    (BitVec.setWidth_eq _).symm.trans BitVec.setWidth_append_eq_shiftLeft_setWidth_or⟩

end Sys2Proof.Machine

/-! PROOFS. How TRAW and TEMP end (R185, R186), and what the engine refuses (R266). -/

namespace Sys2Proof.Machine

open Sys2Proof

variable {s : State}

/-! ## The end of a temperature operation -/

/-- The word latched in TR is the one the compute reads; C1 and C2 are unsigned (R153, R183). -/
theorem step_temperatureEnds {f : Int → BitVec 64} {b0 b1 : Byte} {rest : List Input}
    (h : Performs s.phase s.curop.value fun s => readAnswer s fun v s =>
      .next (endTemperature f { s with tr := .written v }))
    (hi : s.inputs = .answer (.bytes [b0, b1]) :: rest) {v : BitVec 64}
    (hv : v = f (tcomp (decU16 s.calw[(0 : Fin 10)].value) (decU16 s.calw[(1 : Fin 10)].value)
      (decS16 (word16 b0 b1)))) :
    step s = .next { s with
      inputs := rest, tr := .written (word16 b0 b1), phase := .idle, status := .ok,
      rvalid := true, result := .written v, trace := s.trace ++ [.responded .ok (some v)] } := by
  rw [step_performs h hi, readAnswer_bytes hi, endTemperature_eq, hv]
  rfl

/-- Settles O33: TRAW and TEMP end alike, each with its own encoding of the hundredths. -/
theorem temperatureOperationsEnd : Obligations.TemperatureOperationsEnd := by
  refine fun s b0 b1 rest hp hi => ⟨fun hc => ?_, fun hc => ?_⟩
  · exact step_temperatureEnds (by rw [hp, hc]; exact .trawEnds) hi rfl
  · exact step_temperatureEnds (by rw [hp, hc]; exact .tempEnds) hi rfl

/-! ## Answers that do not fit -/

section Misfit

variable {a : Answer} {rest : List Input} {d : DevAddr} {l : Byte}

theorem readAnswer_misfit {go : Word16 → State → Outcome} (hi : s.inputs = .answer a :: rest)
    (h : a.fits (.busRead d l 2) = false) : ∃ x, readAnswer s go = .refused x := by
  cases a with
  | bytes b =>
    have hlen : b.length ≠ 2 := of_decide_eq_false h
    match b with
    | [_, _] => exact absurd rfl hlen
    | [] | [_] | _ :: _ :: _ :: _ => exact ⟨.answerLength _, by rw [readAnswer, hi]⟩
  | failure => cases h
  | ok | slept => exact ⟨.answerKind, by rw [readAnswer, hi]⟩

theorem writeAnswer_misfit {bs : List Byte} {go : State → Outcome}
    (hi : s.inputs = .answer a :: rest) (h : a.fits (.busWrite d l bs) = false) :
    ∃ x, writeAnswer s go = .refused x := by
  cases a with
  | ok | failure => cases h
  | bytes | slept => exact ⟨.answerKind, by rw [writeAnswer, hi]⟩

theorem sleepAnswer_misfit {n : Nat} {go : State → Outcome}
    (hi : s.inputs = .answer a :: rest) (h : a.fits (.sleep n) = false) :
    ∃ x, sleepAnswer s go = .refused x := by
  cases a with
  | slept => cases h
  | bytes | ok | failure => exact ⟨.answerKind, by rw [sleepAnswer, hi]⟩

/-- In every phase with a request outstanding an answer that does not fit it is refused (R61, R266). -/
theorem step_misfit {r : Request} (hr : s.outstanding = some r) (hi : s.inputs = .answer a :: rest)
    (h : a.fits r = false) : ∃ x, step s = .refused x := by
  have unfit {q : Request} (hq : s.outstanding = some q) : a.fits q = false := by
    obtain rfl : q = r := Option.some.inj (hq.symm.trans hr)
    exact h
  cases hp : s.phase with
  | idle => simp [outstanding_idle hp] at hr
  | initRd k =>
    rw [step_performs (by rw [hp]; exact .calibrationWord k _) hi]
    exact readAnswer_misfit hi (unfit (outstanding_initRd hp))
  | tCmd =>
    rw [step_performs (by rw [hp]; exact .temperatureCommand _) hi]
    exact writeAnswer_misfit hi (unfit (outstanding_tCmd hp))
  | tWait =>
    rw [step_performs (by rw [hp]; exact .temperatureDelay _) hi]
    exact sleepAnswer_misfit hi (unfit (outstanding_tWait hp))
  | tRd =>
    rw [step_answerPort (.inr (.inl hp)) hi, answerPort, hp]
    exact readAnswer_misfit hi (unfit (outstanding_tRd hp))
  | pCmd =>
    obtain ⟨m, hm⟩ := curop_of_outstanding (.inl hp) hr
    rw [step_performs (by rw [hp, hm]; exact .pressureCommand m) hi]
    exact writeAnswer_misfit hi (unfit (outstanding_pCmd hp hm))
  | pWait =>
    obtain ⟨m, hm⟩ := curop_of_outstanding (.inr hp) hr
    rw [step_performs (by rw [hp, hm]; exact .pressureDelay m) hi]
    exact sleepAnswer_misfit hi (unfit (outstanding_pWait hp hm))
  | pRd =>
    rw [step_answerPort (.inr (.inr (.inr hp))) hi, answerPort, hp]
    exact readAnswer_misfit hi (unfit (outstanding_pRd hp))

end Misfit

/-! ## Requests, reads and late answers -/

/-- INIT is refused while the calibration is valid (R157). -/
theorem exec_init_refused (hp : s.phase = .idle) (hv : s.calValid = true) :
    exec .init s = .refused .initWhileCalValid := by
  rw [exec, execInit, requested_idle hp, if_pos hv]

/-- A read that its port refuses is refused by the step (R266). -/
theorem step_read_refused {r : HostRead} {rest : List Input} {x : Refusal}
    (hp : s.phase ≠ .idle ∨ s.held = []) (hi : s.inputs = .read r :: rest)
    (hr : readPort r s = .refused x) : step s = .refused x := by
  simp only [step_input hp, runInput, hi, hostRead, readPort_inputs, hr]

/-- Settles O37: each clause is the refusal of the port that the input comes to. -/
theorem refusedInputs : Obligations.RefusedInputs := by
  refine ⟨fun s w rest => step_reservedOpword, fun s rest hp hh hv => ?_,
    fun s rest hp => ⟨fun hi hv => ?_, fun k hi hk => ?_, fun hi ha => ?_⟩,
    fun s r a rest => step_misfit, fun s a rest => step_answer_idle⟩
  · rw [step_held hp hh]
    exact exec_init_refused hp hv
  · exact step_read_refused hp hi (if_neg (by simp [hv]))
  · refine step_read_refused hp hi (dif_neg ?_)
    rintro ⟨hvalid, hlow, hhigh⟩
    rcases hk with hv | hk | hk
    · simp [hv] at hvalid
    all_goals omega
  · rw [step_input hp, runInput, hi]
    exact if_neg (by simp [ha])

end Sys2Proof.Machine

/-! PROOFS. The shift, `RHE` and single binary64 operations: exactness, signs of zeros, rounding to two
decimal places (R121, R125, R130, R133 to R138). -/

namespace Sys2Proof.Machine

open Sys2Proof

/-! ## The shift and `RHE` -/

theorem asr_eq_floor (v : Int) (n : Nat) : asr v n = ⌊(v : Rat) / 2 ^ n⌋ := by
  have h := Rat.floor_intCast_div_natCast v (2 ^ n)
  push_cast at h
  exact h.symm

/-- Settles O10: `asr` is the integer division, which rounds toward minus infinity. -/
theorem arithmeticShiftIsFloor : Obligations.ArithmeticShiftIsFloor := by
  refine ⟨fun v n => ⟨?_, ?_, asr_eq_floor v n⟩, fun _ _ _ => rfl, by decide⟩
  · exact Int.ediv_mul_le v (by positivity)
  · exact Int.lt_ediv_add_one_mul_self v (by positivity)

/-- Settles O12: two integers equally near to q are at least 1 apart, so q is halfway. -/
theorem rheIsNearestTiesToEven : Obligations.RheIsNearestTiesToEven :=
  fun q n => ⟨rhe_nearest q n, rhe_even_of_tie⟩

/-! ## Values that binary64 has -/

theorem isBinary64Value_intCast {i : Int} (h : |i| ≤ 2 ^ 53) : IsBinary64Value (i : Rat) := by
  rcases h.lt_or_eq with hlt | heq
  · exact ⟨i, 0, hlt, by norm_num, by simp [pow2_eq_zpow]⟩
  · obtain ⟨j, rfl⟩ : (2 : Int) ∣ i := by rw [← dvd_abs, heq]; norm_num
    refine ⟨j, 1, ?_, by norm_num, by simp [pow2_eq_zpow, mul_comm]⟩
    rw [abs_mul] at heq
    norm_num at heq
    omega

theorem IsBinary64Value.abs {v : Rat} (h : IsBinary64Value v) : IsBinary64Value |v| := by
  rcases abs_choice v with hv | hv
  · rwa [hv]
  · rw [hv]; exact h.neg

/-- The bound of the operations' range lies far above every integer that `f64` converts exactly. -/
theorem two_pow_53_le : (2 : Rat) ^ 53 ≤ pow2 1023 := by
  have h := pow2_le (show (53 : Int) ≤ 1023 by norm_num)
  rwa [show pow2 53 = 2 ^ 53 by norm_num [pow2_eq_zpow]] at h

/-! ## The result of one rounding in range -/

section Rounded

variable {c : FloatCase} {z : Bool} {q : Rat}

/-- A zero takes the sign it is given (R133). -/
theorem flOf_zero (c : FloatCase) (z : Bool) :
    flOf c z 0 = if z then 0x8000000000000000#64 else 0x0000000000000000#64 := by
  cases z <;> rfl

theorem fl_eq_flOf (h : |q| ≤ pow2 1023) : fl z q = some (flOf c z q) := by
  obtain ⟨x, hx, -⟩ := fl_bounded z (by norm_num) le_rfl h
  rw [flOf, hx, Option.getD_some]

theorem isFinite_flOf (h : |q| ≤ pow2 1023) : F64.isFinite (flOf c z q) = true :=
  (fl_spec (fl_eq_flOf h)).1

theorem sign_flOf (h : |q| ≤ pow2 1023) :
    F64.sign (flOf c z q) = if q = 0 then z else decide (q < 0) :=
  (fl_spec (fl_eq_flOf h)).2.1

/-- No binary64 value is nearer to q than the rounded one (R126). -/
theorem abs_exact_flOf_sub_le (h : |q| ≤ pow2 1023) {v : Rat} (hv : IsBinary64Value v) :
    |F64.exact (flOf c z q) - q| ≤ |v - q| := by
  have hx := fl_eq_flOf (c := c) (z := z) h
  by_cases hq : q = 0
  · rw [(fl_spec hx).2.2, if_pos hq, hq, sub_self, abs_zero]
    exact abs_nonneg _
  · have hdist : |F64.exact (flOf c z q) - q| = |roundToPlace (|q|) - (|q|)| := by
      rw [exact_fl hx hq]
      rcases lt_or_gt_of_ne hq with hneg | hpos
      · rw [if_pos hneg, abs_of_neg hneg, neg_one_mul, ← neg_add', abs_neg, sub_neg_eq_add]
      · rw [if_neg hpos.not_gt, abs_of_pos hpos, one_mul]
    calc |F64.exact (flOf c z q) - q| = |roundToPlace (|q|) - (|q|)| := hdist
      _ ≤ |(|v|) - (|q|)| := (roundToPlace_nearest (abs_pos.mpr hq) hv.abs).1
      _ ≤ |v - q| := abs_abs_sub_abs_le v q

/-- A value that binary64 has is rounded to itself. -/
theorem exact_flOf (h : |q| ≤ pow2 1023) (hv : IsBinary64Value q) : F64.exact (flOf c z q) = q := by
  have hle := abs_exact_flOf_sub_le (c := c) (z := z) h hv
  rw [sub_self, abs_zero] at hle
  exact sub_eq_zero.mp (abs_nonpos_iff.mp hle)

/-- Rounding does not pass a value b that binary64 has. -/
theorem abs_exact_flOf_le (h : |q| ≤ pow2 1023) {b : Rat} (hb : IsBinary64Value b) (hq : |q| ≤ b) :
    |F64.exact (flOf c z q)| ≤ b := by
  have hup := abs_le.mp (abs_exact_flOf_sub_le (c := c) (z := z) h hb)
  have hlow := abs_le.mp (abs_exact_flOf_sub_le (c := c) (z := z) h hb.neg)
  obtain ⟨h1, h2⟩ := abs_le.mp hq
  rw [abs_of_nonneg (by linarith : 0 ≤ b - q)] at hup
  rw [abs_of_nonpos (by linarith : -b - q ≤ 0)] at hlow
  rw [abs_le]
  constructor <;> linarith

theorem le_abs_exact_flOf (h : |q| ≤ pow2 1023) {b : Rat} (hb : IsBinary64Value b) (hq : b ≤ |q|) :
    b ≤ |F64.exact (flOf c z q)| := by
  rcases le_abs.mp hq with hpos | hneg
  · have hle := abs_le.mp (abs_exact_flOf_sub_le (c := c) (z := z) h hb)
    rw [abs_of_nonpos (by linarith : b - q ≤ 0)] at hle
    exact le_abs.mpr (.inl (by linarith))
  · have hle := abs_le.mp (abs_exact_flOf_sub_le (c := c) (z := z) h hb.neg)
    rw [abs_of_nonneg (by linarith : 0 ≤ -b - q)] at hle
    exact le_abs.mpr (.inr (by linarith))

end Rounded

/-! ## Integers (R125) -/

theorem abs_intCast_le {i : Int} (h : |i| ≤ 2 ^ 53) : |(i : Rat)| ≤ pow2 1023 := by
  refine le_trans ?_ two_pow_53_le
  exact_mod_cast h

theorem isFinite_f64 {i : Int} (h : |i| ≤ 2 ^ 53) : F64.isFinite (f64 i) = true :=
  isFinite_flOf (abs_intCast_le h)

theorem exact_f64 {i : Int} (h : |i| ≤ 2 ^ 53) : F64.exact (f64 i) = (i : Rat) :=
  exact_flOf (abs_intCast_le h) (isBinary64Value_intCast h)

theorem sign_f64 {i : Int} (h : |i| ≤ 2 ^ 53) : F64.sign (f64 i) = decide (i < 0) := by
  rw [f64, sign_flOf (abs_intCast_le h)]
  by_cases hi : i = 0 <;> simp [hi]

theorem f64_zero : f64 0 = 0x0000000000000000#64 := by
  rw [f64, Int.cast_zero, flOf_zero]
  rfl

/-- Settles O14: an integer of magnitude at most 2^53 is a binary64 value. -/
theorem integerConversionIsExact : Obligations.IntegerConversionIsExact :=
  ⟨fun _ hlow hhigh => ⟨isFinite_f64 (abs_le.mpr ⟨hlow, hhigh⟩), exact_f64 (abs_le.mpr ⟨hlow, hhigh⟩)⟩,
    f64_zero⟩

/-! ## Division by a power of two (R130) -/

theorem abs_two_pow_le {k : Nat} (hk : k ≤ 46) : |(2 : Int) ^ k| ≤ 2 ^ 53 := by
  rw [abs_of_pos (by positivity)]
  exact pow_le_pow_right₀ (by norm_num) (by omega)

theorem value_f64_two_pow {k : Nat} (hk : k ≤ 46) : F64.exact (f64 (2 ^ k)) = 2 ^ k := by
  rw [exact_f64 (abs_two_pow_le hk)]
  push_cast
  rfl

/-- Dividing a finite value by a power of two is one rounding of the quotient, with the sign of the
dividend. -/
theorem fdiv_two_pow {x : F64} (hx : F64.isFinite x = true) {k : Nat} (hk : k ≤ 46) :
    fdiv x (f64 (2 ^ k)) =
      flOf (.div x (f64 (2 ^ k))) (F64.sign x) (F64.exact x / 2 ^ k) := by
  have hval := value_f64_two_pow hk
  have hsign : F64.sign (f64 (2 ^ k)) = false := by
    rw [sign_f64 (abs_two_pow_le hk), decide_eq_false_iff_not]
    exact not_lt.mpr (by positivity)
  rw [fdiv_of_finite hx (isFinite_f64 (abs_two_pow_le hk)) (by rw [hval]; positivity), hval, hsign,
    Bool.xor_false]

/-- The magnitude of a pattern is its significand in the place its exponent field gives. -/
theorem abs_exact (x : F64) : |F64.exact x| = F64.significand x * pow2 (F64.scale x) := by
  have hs : |(if F64.sign x then (-1 : Rat) else 1)| = 1 := by split <;> simp
  rw [F64.exact, abs_mul, abs_mul, hs, one_mul, Nat.abs_cast, abs_of_pos (pow2_pos _)]

theorem abs_exact_lt {x : F64} (hx : F64.isFinite x = true) : |F64.exact x| < pow2 1024 := by
  have hfield : F64.expField x < 2047 := by
    have : F64.expField x < 2 ^ 11 := Nat.mod_lt _ (by norm_num)
    have : F64.expField x ≠ 2047 := by simpa [F64.isFinite] using hx
    omega
  have hsig : (F64.significand x : Rat) < pow2 53 := by
    have h53 : pow2 53 = 2 ^ 53 := by norm_num [pow2_eq_zpow]
    rw [h53]
    exact_mod_cast significand_lt x
  calc |F64.exact x| = F64.significand x * pow2 (F64.scale x) := abs_exact x
    _ < pow2 53 * pow2 (F64.scale x) := mul_lt_mul_of_pos_right hsig (pow2_pos _)
    _ = pow2 (53 + F64.scale x) := (pow2_add _ _).symm
    _ ≤ pow2 1024 := pow2_le (by unfold F64.scale; omega)

theorem div_two_pow_eq (v : Rat) (k : Nat) : v / 2 ^ k = v * pow2 (-k) := by
  rw [pow2_eq_zpow, zpow_neg, zpow_natCast, div_eq_mul_inv]

theorem abs_exact_div_two_pow_le {x : F64} (hx : F64.isFinite x = true) {k : Nat} (hk : 1 ≤ k) :
    |F64.exact x / 2 ^ k| ≤ pow2 1023 := by
  rw [div_two_pow_eq, abs_mul, abs_of_pos (pow2_pos _)]
  calc |F64.exact x| * pow2 (-k) ≤ pow2 1024 * pow2 (-1) :=
        mul_le_mul (abs_exact_lt hx).le (pow2_le (by omega)) (pow2_pos _).le (pow2_pos _).le
    _ = pow2 1023 := (pow2_add _ _).symm

/-- A normal value whose exponent field is above k keeps its significand when divided by 2^k. -/
theorem isBinary64Value_div_two_pow {x : F64} {k : Nat} (h : k < F64.expField x) :
    IsBinary64Value (F64.exact x / 2 ^ k) := by
  have hlt := significand_lt x
  refine ⟨(if F64.sign x then -1 else 1) * (F64.significand x : Int), F64.scale x - k, ?_, ?_, ?_⟩
  · rw [abs_mul]
    split <;> simp <;> omega
  · unfold F64.scale
    omega
  · rw [div_two_pow_eq, F64.exact, sub_eq_add_neg, pow2_add]
    push_cast
    ring

/-- Settles O15: the quotient keeps the dividend's significand, in a place that binary64 has. -/
theorem powerOfTwoDivisionIsExact : Obligations.PowerOfTwoDivisionIsExact := by
  intro x k hx hk1 hk h
  have hle := abs_exact_div_two_pow_le hx hk1
  rw [fdiv_two_pow hx hk]
  refine ⟨isFinite_flOf hle, exact_flOf hle ?_⟩
  rcases h with h0 | hfield
  · rw [h0, zero_div]
    exact isBinary64Value_intCast (i := 0) (by norm_num)
  · exact isBinary64Value_div_two_pow hfield

/-! ## Signs (R133) -/

/-- The sign bit of a value that is not zero says whether it is negative. -/
theorem sign_eq_decide {x : F64} (h : F64.exact x ≠ 0) : F64.sign x = decide (F64.exact x < 0) := by
  have hpos : 0 < (F64.significand x : Rat) * pow2 (F64.scale x) := by
    rw [← abs_exact]
    exact abs_pos.mpr h
  rw [F64.exact, mul_assoc]
  cases F64.sign x
  · simpa using hpos.le
  · simpa using hpos

/-- Rounding gives the sign z when z is the sign of the exact result, or the sign a zero is given. -/
theorem sign_flOf_eq {c : FloatCase} {z : Bool} {q : Rat} (h : |q| ≤ pow2 1023)
    (hz : q ≠ 0 → decide (q < 0) = z) : F64.sign (flOf c z q) = z := by
  rw [sign_flOf h]
  split
  · rfl
  · next hq => exact hz hq

theorem decide_mul_neg {u v : Rat} (hu : u ≠ 0) (hv : v ≠ 0) :
    decide (u * v < 0) = (decide (u < 0) ^^ decide (v < 0)) := by
  rcases lt_or_gt_of_ne hu with h1 | h1 <;> rcases lt_or_gt_of_ne hv with h2 | h2
  · simp [h1, h2, (mul_pos_of_neg_of_neg h1 h2).not_gt]
  · simp [h1, h2.not_gt, mul_neg_of_neg_of_pos h1 h2]
  · simp [h1.not_gt, h2, mul_neg_of_pos_of_neg h1 h2]
  · simp [h1.not_gt, h2.not_gt, (mul_pos h1 h2).not_gt]

theorem decide_div_neg {u v : Rat} (hu : u ≠ 0) (hv : v ≠ 0) :
    decide (u / v < 0) = (decide (u < 0) ^^ decide (v < 0)) := by
  simp only [div_eq_mul_inv, decide_mul_neg hu (inv_ne_zero hv), inv_lt_zero]

/-- Settles O16: a zero result takes the sign the operation gives it, any other the sign of its exact
value. -/
theorem signsOfZerosAndProducts : Obligations.SignsOfZerosAndProducts := by
  intro a b ha hb
  refine ⟨fun hs h0 => ?_, fun h => ?_, fun hb0 h => ?_⟩
  · have hz : (F64.sign a && F64.sign b) = false := by
      revert hs
      cases F64.sign a <;> cases F64.sign b <;> simp
    rw [fadd_of_finite ha hb, h0, hz, flOf_zero]
    rfl
  · rw [fmul_of_finite ha hb]
    refine sign_flOf_eq h fun hq => ?_
    have ha0 := left_ne_zero_of_mul hq
    have hb0 := right_ne_zero_of_mul hq
    rw [decide_mul_neg ha0 hb0, ← sign_eq_decide ha0, ← sign_eq_decide hb0]
  · rw [fdiv_of_finite ha hb hb0]
    refine sign_flOf_eq h fun hq => ?_
    have ha0 : F64.exact a ≠ 0 := fun hc => hq (by rw [hc, zero_div])
    rw [decide_div_neg ha0 hb0, ← sign_eq_decide ha0, ← sign_eq_decide hb0]

/-! ## Two decimal places (R135 to R138) -/

theorem round2_of_finite {v : F64} (hv : F64.isFinite v = true) :
    round2 v = flOf (.round2 v) (F64.sign v) ((rhe (100 * F64.exact v) : Rat) / 100) := if_pos hv

/-- Rounding to hundredths adds less than 1 to a magnitude. -/
theorem abs_rhe_hundredths_le (v : Rat) : |(rhe (100 * v) : Rat) / 100| ≤ |v| + 1 := by
  have hr := abs_le.mp (abs_rhe_sub_le (100 * v))
  have hneg := neg_abs_le v
  have hpos := le_abs_self v
  rw [abs_le]
  constructor <;> linarith

theorem round2_negative_thousandths :
    round2 0xBF50624DD2F1A9FC#64 = 0x8000000000000000#64 ∧
      round2 0xBF747AE147AE147B#64 = 0xBF847AE147AE147B#64 := by decide +kernel

/-- Settles O17: a zero N is rounded to a zero with the sign of v. -/
theorem roundingKeepsTheSignOfZero : Obligations.RoundingKeepsTheSignOfZero := by
  refine ⟨fun v hv h0 => ?_, round2_negative_thousandths⟩
  rw [round2_of_finite hv, h0, Int.cast_zero, zero_div, flOf_zero]

/-- Settles O18: N/100 is in range, so its rounding is the nearest value. -/
theorem roundingToTwoPlaces : Obligations.RoundingToTwoPlaces := by
  intro v hv hle
  rw [round2_of_finite hv]
  refine nearestEven_flOf _ _ ?_
  have hone : (1 : Rat) ≤ pow2 1000 := by
    have := pow2_le (show (0 : Int) ≤ 1000 by norm_num)
    rwa [show pow2 0 = 1 by norm_num [pow2]] at this
  calc |(rhe (100 * F64.exact v) : Rat) / 100| ≤ |F64.exact v| + 1 := abs_rhe_hundredths_le _
    _ ≤ pow2 1000 + pow2 1000 := add_le_add hle hone
    _ = pow2 1000 * pow2 1 := by rw [show pow2 1 = 2 by norm_num [pow2], mul_two]
    _ = pow2 (1000 + 1) := (pow2_add _ _).symm
    _ ≤ pow2 1023 := pow2_le (by norm_num)

theorem f64_hundred : f64 100 = 0x4059000000000000#64 := by decide +kernel

theorem value_f64_hundred : F64.exact (f64 100) = 100 := by
  rw [exact_f64 (by norm_num)]
  norm_num

/-- Division of a finite value by 100.0 is one rounding of the quotient, with the sign of the
dividend. -/
theorem fdiv_hundred {x : F64} (hx : F64.isFinite x = true) :
    fdiv x (f64 100) = flOf (.div x (f64 100)) (F64.sign x) (F64.exact x / 100) := by
  have hsign : F64.sign (f64 100) = false := sign_f64 (by norm_num)
  rw [fdiv_of_finite hx (isFinite_f64 (by norm_num)) (by rw [value_f64_hundred]; norm_num),
    value_f64_hundred, hsign, Bool.xor_false]

/-- Settles O19: the conversion is exact and the division is rounded once. -/
theorem hundredthsToDegrees : Obligations.HundredthsToDegrees := by
  refine ⟨fun n => by rw [hund2deg, f64_hundred], fun n hlow hhigh => ?_, ?_⟩
  · have hn : |n| ≤ 2 ^ 53 := abs_le.mpr ⟨hlow, hhigh⟩
    rw [hund2deg, fdiv_hundred (isFinite_f64 hn), exact_f64 hn]
    refine nearestEven_flOf _ _ ?_
    calc |(n : Rat) / 100| = |(n : Rat)| / 100 := by rw [abs_div]; norm_num
      _ ≤ |(n : Rat)| := div_le_self (abs_nonneg _) (by norm_num)
      _ ≤ pow2 1023 := abs_intCast_le hn
  · rw [hund2deg, fdiv_hundred (isFinite_f64 (by norm_num)), exact_f64 (by norm_num),
      sign_f64 (by norm_num), Int.cast_zero, zero_div, flOf_zero]
    rfl

end Sys2Proof.Machine

/-! PROOFS. The pressure datapath over its whole input domain: a bound and a grid of multiples for each
value, carried through the operations (R131, R133, R223). -/

namespace Sys2Proof.Machine

open Sys2Proof

/-! ## Grids: multiples of a power of two

Sums, products and divisions by powers of two keep the values of the datapath on grids of multiples of
2^(-g), and rounding keeps a grid too. So a value that is not zero is at least 2^(-g) in magnitude. -/

/-- v is a multiple of 2^(-g). -/
def OnGrid (g : Nat) (v : Rat) : Prop := ∃ n : Int, v = n * pow2 (-g)

namespace OnGrid

variable {g k : Nat} {u v : Rat}

theorem intCast (i : Int) : OnGrid 0 (i : Rat) := ⟨i, by simp [pow2_eq_zpow]⟩

theorem mono (h : OnGrid g v) (hk : g ≤ k) : OnGrid k v := by
  obtain ⟨n, rfl⟩ := h
  exact mul_pow2_of_le n (by omega)

theorem add (hu : OnGrid g u) (hv : OnGrid g v) : OnGrid g (u + v) := by
  obtain ⟨m, rfl⟩ := hu
  obtain ⟨n, rfl⟩ := hv
  exact ⟨m + n, by push_cast; ring⟩

theorem neg (hv : OnGrid g v) : OnGrid g (-v) := by
  obtain ⟨n, rfl⟩ := hv
  exact ⟨-n, by rw [Int.cast_neg, neg_mul]⟩

theorem mul (hu : OnGrid g u) (hv : OnGrid k v) : OnGrid (g + k) (u * v) := by
  obtain ⟨m, rfl⟩ := hu
  obtain ⟨n, rfl⟩ := hv
  refine ⟨m * n, ?_⟩
  push_cast
  rw [neg_add, pow2_add]
  ring

theorem div_two_pow (hv : OnGrid g v) (k : Nat) : OnGrid (g + k) (v / 2 ^ k) := by
  rw [div_two_pow_eq]
  exact hv.mul ⟨1, by rw [Int.cast_one, one_mul]⟩

/-- A multiple of 2^(-g) that is not zero is at least 2^(-g) in magnitude. -/
theorem le_abs (hv : OnGrid g v) (h0 : v ≠ 0) : pow2 (-g) ≤ |v| := by
  obtain ⟨n, rfl⟩ := hv
  have hn : n ≠ 0 := by
    rintro rfl
    exact h0 (by simp)
  have hone : (1 : Rat) ≤ |(n : Rat)| := by exact_mod_cast Int.one_le_abs hn
  rw [abs_mul, abs_of_pos (pow2_pos _)]
  exact le_mul_of_one_le_left (pow2_pos _).le hone

/-- Rounding keeps a grid: where the last place of v is below the grid nothing is rounded, and otherwise
the result is a multiple of that place. -/
theorem exact_flOf {c : FloatCase} {z : Bool} (hv : OnGrid g v) (h : |v| ≤ pow2 1023) :
    OnGrid g (F64.exact (flOf c z v)) := by
  have hfl := fl_eq_flOf (c := c) (z := z) h
  rcases le_or_gt (lastPlace |v|) (-g) with hl | hl
  · obtain ⟨n, hn⟩ := hv
    obtain ⟨m, hm⟩ := mul_pow2_of_le |n| hl
    have habs : |v| = m * pow2 (lastPlace |v|) := by
      rw [← hm, hn, abs_mul, abs_of_pos (pow2_pos _), Int.cast_abs]
    exact ⟨n, by rw [fl_exact hfl m habs, hn]⟩
  · by_cases h0 : v = 0
    · exact ⟨0, by rw [(fl_spec hfl).2.2, if_pos h0, Int.cast_zero, zero_mul]⟩
    · obtain ⟨m, hm⟩ := mul_pow2_of_le (rhe (|v| / pow2 (lastPlace |v|))) hl.le
      refine ⟨(if v < 0 then -1 else 1) * m, ?_⟩
      rw [exact_fl hfl h0, roundToPlace, hm]
      push_cast
      ring

end OnGrid

/-! ## Values within a bound, on a grid -/

theorem natCast_le_pow2 {B : Nat} (hB : B ≤ 2 ^ 53) : (B : Rat) ≤ pow2 1023 := by
  refine le_trans ?_ two_pow_53_le
  exact_mod_cast hB

/-- A multiple of 2^(-g) of magnitude at most B. -/
structure Within (g B : Nat) (v : Rat) : Prop where
  bound : |v| ≤ B
  grid : OnGrid g v

namespace Within

variable {u v : Rat} {g h k A B C : Nat}

theorem add (hu : Within g A u) (hv : Within h B v) (hg : g ≤ k) (hh : h ≤ k) (hC : A + B ≤ C) :
    Within k C (u + v) where
  bound := calc
    |u + v| ≤ |u| + |v| := abs_add_le _ _
    _ ≤ A + B := add_le_add hu.bound hv.bound
    _ ≤ C := by exact_mod_cast hC
  grid := (hu.grid.mono hg).add (hv.grid.mono hh)

theorem neg (hv : Within g B v) : Within g B (-v) where
  bound := by rw [abs_neg]; exact hv.bound
  grid := hv.grid.neg

theorem mul (hu : Within g A u) (hv : Within h B v) (hg : g + h ≤ k) (hC : A * B ≤ C) :
    Within k C (u * v) where
  bound := calc
    |u * v| = |u| * |v| := abs_mul _ _
    _ ≤ A * B := mul_le_mul hu.bound hv.bound (abs_nonneg _) (Nat.cast_nonneg _)
    _ ≤ C := by exact_mod_cast hC
  grid := (hu.grid.mul hv.grid).mono hg

theorem div_two_pow {n : Nat} (hv : Within g B v) (hg : g + n ≤ k) (hC : B ≤ C * 2 ^ n) :
    Within k C (v / 2 ^ n) where
  bound := by
    rw [abs_div, abs_of_pos (by positivity : (0 : Rat) < 2 ^ n), div_le_iff₀ (by positivity)]
    exact hv.bound.trans (by exact_mod_cast hC)
  grid := (hv.grid.div_two_pow n).mono hg

theorem le_pow2 (hv : Within g B v) (hB : B ≤ 2 ^ 53) : |v| ≤ pow2 1023 :=
  hv.bound.trans (natCast_le_pow2 hB)

end Within

/-- A finite pattern whose value is a multiple of 2^(-g) of magnitude at most B. -/
structure InRange (g B : Nat) (x : F64) : Prop where
  finite : F64.isFinite x = true
  within : Within g B (F64.exact x)

/-- What R131 concludes of a value of the datapath: it is finite and below 2^40, and far from the
subnormals. -/
structure Tame (x : F64) : Prop where
  finite : F64.isFinite x = true
  below : |F64.exact x| < pow2 40
  apart : F64.exact x = 0 ∨ pow2 (-200) ≤ |F64.exact x|

theorem natCast_lt_pow2 {B : Nat} (hB : B < 2 ^ 40) : (B : Rat) < pow2 40 := by
  rw [show pow2 40 = 2 ^ 40 by norm_num [pow2_eq_zpow]]
  exact_mod_cast hB

/-- A zero is +0. -/
def PositiveZero (x : F64) : Prop := F64.exact x = 0 → F64.sign x = false

theorem PositiveZero.ne_negZero {x : F64} (h : PositiveZero x) : x ≠ 0x8000000000000000#64 := by
  rintro rfl
  exact absurd (h (by decide +kernel)) (by decide +kernel)

/-! ## One rounding of such a value -/

section Rounded

variable {c : FloatCase} {z : Bool} {q : Rat} {g B : Nat}

theorem isBinary64Value_natCast (hB : B ≤ 2 ^ 53) : IsBinary64Value (B : Rat) := by
  have h := isBinary64Value_intCast (i := B) (by rw [Nat.abs_cast]; exact_mod_cast hB)
  rwa [Int.cast_natCast] at h

theorem inRange_flOf (hq : Within g B q) (hB : B ≤ 2 ^ 53) : InRange g B (flOf c z q) :=
  have hle := hq.le_pow2 hB
  ⟨isFinite_flOf hle, abs_exact_flOf_le hle (isBinary64Value_natCast hB) hq.bound,
    hq.grid.exact_flOf hle⟩

/-- A result on the grid is rounded to a zero only when it is zero. -/
theorem Within.exact_flOf_eq_zero (hq : Within g B q) (hg : g ≤ 1074) (hB : B ≤ 2 ^ 53)
    (h0 : F64.exact (flOf c z q) = 0) : q = 0 := by
  by_contra hne
  have hvalue : IsBinary64Value (pow2 (-g)) :=
    ⟨1, -g, by norm_num, by omega, by rw [Int.cast_one, one_mul]⟩
  have hle := le_abs_exact_flOf (c := c) (z := z) (hq.le_pow2 hB) hvalue (hq.grid.le_abs hne)
  rw [h0, abs_zero] at hle
  exact hle.not_gt (pow2_pos _)

theorem positiveZero_flOf (hq : Within g B q) (hg : g ≤ 1074) (hB : B ≤ 2 ^ 53)
    (hz : q = 0 → z = false) : PositiveZero (flOf c z q) := fun h0 => by
  have hq0 := hq.exact_flOf_eq_zero hg hB h0
  rw [sign_flOf (hq.le_pow2 hB), if_pos hq0, hz hq0]

end Rounded

/-! ## The operations on such values

The side conditions are on numerals: grids and bounds of the two operands give those of the result. -/

theorem within_intCast {i : Int} {B : Nat} (h : |i| ≤ B) : Within 0 B (i : Rat) :=
  ⟨by exact_mod_cast h, .intCast i⟩

theorem inRange_f64 {i : Int} {B : Nat} (h : |i| ≤ B) (hB : B ≤ 2 ^ 53 := by norm_num) :
    InRange 0 B (f64 i) :=
  inRange_flOf (within_intCast h) hB

theorem positiveZero_f64 {i : Int} {B : Nat} (h : |i| ≤ B) (hB : B ≤ 2 ^ 53 := by norm_num) :
    PositiveZero (f64 i) :=
  positiveZero_flOf (within_intCast h) (by norm_num) hB fun _ => rfl

namespace InRange

variable {a b x : F64} {g h k n A B C : Nat}

theorem fadd (ha : InRange g A a) (hb : InRange h B b) (hga : g ≤ k := by norm_num)
    (hgb : h ≤ k := by norm_num) (hC : A + B ≤ C := by norm_num)
    (hC53 : C ≤ 2 ^ 53 := by norm_num) : InRange k C (fadd a b) := by
  rw [fadd_of_finite ha.finite hb.finite]
  exact inRange_flOf (ha.within.add hb.within hga hgb hC) hC53

theorem fsub (ha : InRange g A a) (hb : InRange h B b) (hga : g ≤ k := by norm_num)
    (hgb : h ≤ k := by norm_num) (hC : A + B ≤ C := by norm_num)
    (hC53 : C ≤ 2 ^ 53 := by norm_num) : InRange k C (fsub a b) := by
  rw [fsub_of_finite ha.finite hb.finite, sub_eq_add_neg]
  exact inRange_flOf (ha.within.add hb.within.neg hga hgb hC) hC53

theorem fmul (ha : InRange g A a) (hb : InRange h B b) (hg : g + h ≤ k := by norm_num)
    (hC : A * B ≤ C := by norm_num) (hC53 : C ≤ 2 ^ 53 := by norm_num) : InRange k C (fmul a b) := by
  rw [fmul_of_finite ha.finite hb.finite]
  exact inRange_flOf (ha.within.mul hb.within hg hC) hC53

theorem fdiv (ha : InRange g A a) (hg : g + n ≤ k := by norm_num)
    (hC : A ≤ C * 2 ^ n := by norm_num) (hn : n ≤ 46 := by norm_num)
    (hC53 : C ≤ 2 ^ 53 := by norm_num) : InRange k C (fdiv a (f64 (2 ^ n))) := by
  rw [fdiv_two_pow ha.finite hn]
  exact inRange_flOf (ha.within.div_two_pow hg hC) hC53

theorem tame (hx : InRange g B x) (hg : g ≤ 200 := by norm_num) (hB : B < 2 ^ 40 := by norm_num) :
    Tame x where
  finite := hx.finite
  below := hx.within.bound.trans_lt (natCast_lt_pow2 hB)
  apart := or_iff_not_imp_left.mpr fun h0 => (pow2_le (by omega)).trans (hx.within.grid.le_abs h0)

/-- A zero sum is +0 when one operand is no -0: the operands are then not both negative. -/
theorem positiveZero_fadd (ha : InRange g A a) (hb : InRange h B b)
    (hz : PositiveZero a ∨ PositiveZero b) (hg : max g h ≤ 1074 := by norm_num)
    (hC : A + B ≤ 2 ^ 53 := by norm_num) : PositiveZero (Machine.fadd a b) := by
  rw [fadd_of_finite ha.finite hb.finite]
  refine positiveZero_flOf (ha.within.add hb.within (le_max_left g h) (le_max_right g h) le_rfl) hg hC
    fun hsum => ?_
  by_cases ha0 : F64.exact a = 0
  · have hb0 : F64.exact b = 0 := by rwa [ha0, zero_add] at hsum
    rcases hz with hz | hz
    · rw [hz ha0, Bool.false_and]
    · rw [hz hb0, Bool.and_false]
  · have hneg : F64.exact b = -F64.exact a := (neg_eq_of_add_eq_zero_right hsum).symm
    rw [sign_eq_decide ha0, sign_eq_decide (hneg ▸ neg_ne_zero.mpr ha0), hneg]
    simpa using le_of_lt

theorem positiveZero_fdiv (ha : InRange g A a) (hz : PositiveZero a)
    (hn : n ≤ 46 := by norm_num) (hg : g + n ≤ 1074 := by norm_num) (hA : A ≤ 2 ^ 53 := by norm_num) :
    PositiveZero (Machine.fdiv a (f64 (2 ^ n))) := by
  rw [fdiv_two_pow ha.finite hn]
  refine positiveZero_flOf (ha.within.div_two_pow le_rfl (Nat.le_mul_of_pos_right A (by positivity))) hg
    hA fun hq => hz ?_
  exact (div_eq_zero_iff.mp hq).resolve_right (by positivity)

end InRange

/-! ## The stages of the datapath

The values of R131, cut where one function of R212 to R216 hands over to the next. -/

/-- The values of PS (R212). -/
def sensitivityValues (c3 c4 c5 c9 tr : Int) : List F64 :=
  let s1 := fdiv (f64 (c4 * tr)) (f64 (2 ^ 17))
  let s2a := fdiv (f64 (c5 * tr)) (f64 (2 ^ 15))
  let s2b := fmul s2a (f64 tr)
  let s2 := fdiv s2b (f64 (2 ^ 19))
  let s3a := fdiv (f64 (c9 * tr)) (f64 (2 ^ 15))
  let s3b := fmul s3a (f64 tr)
  let s3c := fdiv s3b (f64 (2 ^ 15))
  let s3d := fmul s3c (f64 tr)
  let s3 := fdiv s3d (f64 (2 ^ 16))
  let sa := fadd (f64 c3) s1
  let sb := fadd sa s2
  [f64 (c4 * tr), s1, f64 (c5 * tr), s2a, s2b, s2, f64 (c9 * tr), s3a, s3b, s3c, s3d, s3, f64 c3, sa,
    sb, ps c3 c4 c5 c9 tr]

/-- The values of PO (R213), without the two it shares with PS. -/
def offsetValues (c6 c7 c8 c9 tr : Int) : List F64 :=
  let o0 := f64 (c6 * 16384)
  let o1 := fdiv (f64 (c7 * tr)) (f64 (2 ^ 3))
  let o2a := fdiv (f64 (c8 * tr)) (f64 (2 ^ 15))
  let o2b := fmul o2a (f64 tr)
  let o2 := fdiv o2b (f64 (2 ^ 4))
  let o3a := fdiv (f64 (c9 * tr)) (f64 (2 ^ 15))
  let o3b := fmul o3a (f64 tr)
  let o3c := fdiv o3b (f64 (2 ^ 16))
  let o3 := fmul o3c (f64 tr)
  let oa := fadd o0 o1
  let ob := fadd oa o2
  [o0, f64 (c7 * tr), o1, f64 (c8 * tr), o2a, o2b, o2, o3c, o3, oa, ob, po c6 c7 c8 c9 tr]

/-- The values of PX (R214). -/
def uncorrectedValues (s o : F64) (p : Int) : List F64 :=
  let t := fmul s (f64 p)
  [f64 p, t, fadd t o, px s o p]

/-- The values of PPA (R215). -/
def correctedValues (x : F64) (c10 : Int) : List F64 :=
  let d := fsub x (f64 75000)
  let q := fmul d d
  let q2 := fdiv q (f64 (2 ^ 16))
  let r := fsub q2 (f64 9537)
  let mm := fmul r (f64 c10)
  let m2 := fdiv mm (f64 (2 ^ 16))
  [d, q, q2, r, f64 c10, mm, m2, ppa x c10]

/-- The values of PHPA (R216). -/
def resultValues (pa : F64) : List F64 := [fdiv pa (f64 100), phpa pa]

theorem pressureValues_eq (c3 c4 c5 c6 c7 c8 c9 c10 tr p : Int) :
    pressureValues c3 c4 c5 c6 c7 c8 c9 c10 tr p =
      sensitivityValues c3 c4 c5 c9 tr ++ offsetValues c6 c7 c8 c9 tr ++ [f64 tr] ++
      uncorrectedValues (ps c3 c4 c5 c9 tr) (po c6 c7 c8 c9 tr) p ++
      correctedValues (px (ps c3 c4 c5 c9 tr) (po c6 c7 c8 c9 tr) p) c10 ++
      resultValues (ppa (px (ps c3 c4 c5 c9 tr) (po c6 c7 c8 c9 tr) p) c10) := rfl

/-! ## Integers of 16 bits and their products -/

theorem abs_le_of_isU16 {i : Int} (h : isU16 i) : |i| ≤ (2 ^ 16 : Nat) := by
  obtain ⟨h0, h1⟩ := h
  rw [abs_of_nonneg h0]
  omega

theorem abs_le_of_isS16 {i : Int} (h : isS16 i) : |i| ≤ (2 ^ 15 : Nat) := by
  obtain ⟨h0, h1⟩ := h
  rw [abs_le]
  constructor <;> omega

theorem abs_mul_le_natCast {i j : Int} {A B C : Nat} (hi : |i| ≤ A) (hj : |j| ≤ B)
    (hC : A * B ≤ C := by norm_num) : |i * j| ≤ C := by
  rw [abs_mul]
  exact (mul_le_mul hi hj (abs_nonneg _) (Nat.cast_nonneg _)).trans (by exact_mod_cast hC)

theorem inRange_f64_u16 {c : Int} (h : isU16 c) : InRange 0 (2 ^ 16) (f64 c) :=
  inRange_f64 (abs_le_of_isU16 h)

theorem inRange_f64_s16 {c : Int} (h : isS16 c) : InRange 0 (2 ^ 15) (f64 c) :=
  inRange_f64 (abs_le_of_isS16 h)

theorem inRange_f64_u16_mul {c tr : Int} (h : isU16 c) (ht : isS16 tr) :
    InRange 0 (2 ^ 31) (f64 (c * tr)) :=
  inRange_f64 (abs_mul_le_natCast (abs_le_of_isU16 h) (abs_le_of_isS16 ht))

theorem inRange_f64_s16_mul {c tr : Int} (h : isS16 c) (ht : isS16 tr) :
    InRange 0 (2 ^ 30) (f64 (c * tr)) :=
  inRange_f64 (abs_mul_le_natCast (abs_le_of_isS16 h) (abs_le_of_isS16 ht))

/-! ## Each stage in range -/

section Stages

variable {c3 c4 c5 c6 c7 c8 c9 c10 tr p : Int} {s o x : F64}

/-- PS stays in range (R212): its first term C3 is no -0, so no sum after it is. -/
theorem sensitivity_inRange (h3 : isU16 c3) (h4 : isU16 c4) (h5 : isS16 c5) (h9 : isS16 c9)
    (htr : isS16 tr) :
    InRange 46 100352 (ps c3 c4 c5 c9 tr) ∧ PositiveZero (ps c3 c4 c5 c9 tr) ∧
      ∀ y ∈ sensitivityValues c3 c4 c5 c9 tr, Tame y := by
  have ft := inRange_f64_s16 htr
  have f3 := inRange_f64_u16 h3
  have f4 := inRange_f64_u16_mul h4 htr
  have f5 := inRange_f64_s16_mul h5 htr
  have f9 := inRange_f64_s16_mul h9 htr
  unfold sensitivityValues ps
  extract_lets s1 s2a s2b s2 s3a s3b s3c s3d s3 sa sb
  have hs1 : InRange 17 (2 ^ 14) s1 := f4.fdiv
  have hs2a : InRange 15 (2 ^ 15) s2a := f5.fdiv
  have hs2b : InRange 15 (2 ^ 30) s2b := hs2a.fmul ft
  have hs2 : InRange 34 (2 ^ 11) s2 := hs2b.fdiv
  have hs3a : InRange 15 (2 ^ 15) s3a := f9.fdiv
  have hs3b : InRange 15 (2 ^ 30) s3b := hs3a.fmul ft
  have hs3c : InRange 30 (2 ^ 15) s3c := hs3b.fdiv
  have hs3d : InRange 30 (2 ^ 30) s3d := hs3c.fmul ft
  have hs3 : InRange 46 (2 ^ 14) s3 := hs3d.fdiv
  have hsa : InRange 17 81920 sa := f3.fadd hs1
  have hsb : InRange 34 83968 sb := hsa.fadd hs2
  have hs : InRange 46 100352 (fadd sb s3) := hsb.fadd hs3
  have hza : PositiveZero sa := f3.positiveZero_fadd hs1 (.inl (positiveZero_f64 (abs_le_of_isU16 h3)))
  have hzb : PositiveZero sb := hsa.positiveZero_fadd hs2 (.inl hza)
  refine ⟨hs, hsb.positiveZero_fadd hs3 (.inl hzb), ?_⟩
  simp only [List.forall_mem_cons]
  exact ⟨f4.tame, hs1.tame, f5.tame, hs2a.tame, hs2b.tame, hs2.tame, f9.tame, hs3a.tame, hs3b.tame,
    hs3c.tame, hs3d.tame, hs3.tame, f3.tame, hsa.tame, hsb.tame, hs.tame, List.forall_mem_nil _⟩

/-- PO stays in range (R213): its first term is no -0, so no sum after it is. -/
theorem offset_inRange (h6 : isS16 c6) (h7 : isS16 c7) (h8 : isS16 c8) (h9 : isS16 c9)
    (htr : isS16 tr) :
    InRange 31 1275068416 (po c6 c7 c8 c9 tr) ∧ PositiveZero (po c6 c7 c8 c9 tr) ∧
      ∀ y ∈ offsetValues c6 c7 c8 c9 tr, Tame y := by
  have ft := inRange_f64_s16 htr
  have f7 := inRange_f64_s16_mul h7 htr
  have f8 := inRange_f64_s16_mul h8 htr
  have f9 := inRange_f64_s16_mul h9 htr
  have hc6 : |c6 * 16384| ≤ (2 ^ 29 : Nat) :=
    abs_mul_le_natCast (B := 2 ^ 14) (abs_le_of_isS16 h6) (by norm_num)
  unfold offsetValues po
  extract_lets o0 o1 o2a o2b o2 o3a o3b o3c o3 oa ob
  have ho0 : InRange 0 (2 ^ 29) o0 := inRange_f64 hc6
  have ho1 : InRange 3 (2 ^ 27) o1 := f7.fdiv
  have ho2a : InRange 15 (2 ^ 15) o2a := f8.fdiv
  have ho2b : InRange 15 (2 ^ 30) o2b := ho2a.fmul ft
  have ho2 : InRange 19 (2 ^ 26) o2 := ho2b.fdiv
  have ho3a : InRange 15 (2 ^ 15) o3a := f9.fdiv
  have ho3b : InRange 15 (2 ^ 30) o3b := ho3a.fmul ft
  have ho3c : InRange 31 (2 ^ 14) o3c := ho3b.fdiv
  have ho3 : InRange 31 (2 ^ 29) o3 := ho3c.fmul ft
  have hoa : InRange 3 671088640 oa := ho0.fadd ho1
  have hob : InRange 19 738197504 ob := hoa.fadd ho2
  have ho : InRange 31 1275068416 (fadd ob o3) := hob.fadd ho3
  have hza : PositiveZero oa := ho0.positiveZero_fadd ho1 (.inl (positiveZero_f64 hc6))
  have hzb : PositiveZero ob := hoa.positiveZero_fadd ho2 (.inl hza)
  refine ⟨ho, hob.positiveZero_fadd ho3 (.inl hzb), ?_⟩
  simp only [List.forall_mem_cons]
  exact ⟨ho0.tame, f7.tame, ho1.tame, f8.tame, ho2a.tame, ho2b.tame, ho2.tame, ho3c.tame, ho3.tame,
    hoa.tame, hob.tame, ho.tame, List.forall_mem_nil _⟩

/-- PX stays in range (R214). The product t can be -0, but O is not, so u is not. -/
theorem uncorrected_inRange (hs : InRange 46 100352 s) (ho : InRange 31 1275068416 o)
    (hz : PositiveZero o) (hp : isU16 p) :
    InRange 60 479233 (px s o p) ∧ PositiveZero (px s o p) ∧
      ∀ y ∈ uncorrectedValues s o p, Tame y := by
  have fp := inRange_f64_u16 hp
  unfold uncorrectedValues px
  extract_lets t u
  have ht : InRange 46 6576668672 t := hs.fmul fp
  have hu : InRange 46 7851737088 u := ht.fadd ho
  have hx : InRange 60 479233 (fdiv u (f64 (2 ^ 14))) := hu.fdiv
  refine ⟨hx, hu.positiveZero_fdiv (ht.positiveZero_fadd ho (.inr hz)), ?_⟩
  simp only [List.forall_mem_cons]
  exact ⟨fp.tame, ht.tame, hu.tame, hx.tame, List.forall_mem_nil _⟩

/-- PPA stays in range (R215): the square of X - 75000 is below 2^39. -/
theorem corrected_inRange (hx : InRange 60 479233 x) (hz : PositiveZero x) (h10 : isS16 c10) :
    InRange 152 (2 ^ 24) (ppa x c10) ∧ PositiveZero (ppa x c10) ∧
      ∀ y ∈ correctedValues x c10, Tame y := by
  have f10 := inRange_f64_s16 h10
  have f75000 : InRange 0 75000 (f64 75000) := inRange_f64 (by norm_num)
  have f9537 : InRange 0 9537 (f64 9537) := inRange_f64 (by norm_num)
  unfold correctedValues ppa
  extract_lets d q q2 r mm m2
  have hd : InRange 60 554233 d := hx.fsub f75000
  have hq : InRange 120 (2 ^ 39) q := hd.fmul hd
  have hq2 : InRange 136 (2 ^ 23) q2 := hq.fdiv
  have hr : InRange 136 (2 ^ 24 - 1) r := hq2.fsub f9537
  have hmm : InRange 136 (2 ^ 39) mm := hr.fmul f10
  have hm2 : InRange 152 (2 ^ 23) m2 := hmm.fdiv
  have hpa : InRange 152 (2 ^ 24) (fadd x m2) := hx.fadd hm2
  refine ⟨hpa, hx.positiveZero_fadd hm2 (.inl hz), ?_⟩
  simp only [List.forall_mem_cons]
  exact ⟨hd.tame, hq.tame, hq2.tame, hr.tame, f10.tame, hmm.tame, hm2.tame, hpa.tame,
    List.forall_mem_nil _⟩

end Stages

/-! ## The result

Hundredths are on no grid of powers of two, so the last two values are bounded on their own. -/

section Result

variable {c : FloatCase} {z : Bool} {v : Rat} {B : Nat} {x pa : F64}

/-- One rounding keeps a bound that is an integer, and the distance from the subnormals. -/
theorem tame_flOf (hv : |v| ≤ B) (hB : B < 2 ^ 40) (h0 : v ≠ 0 → pow2 (-200) ≤ |v|) :
    Tame (flOf c z v) where
  finite := isFinite_flOf (hv.trans (natCast_le_pow2 (by omega)))
  below := by
    refine (abs_exact_flOf_le ?_ (isBinary64Value_natCast ?_) hv).trans_lt (natCast_lt_pow2 hB)
    · exact hv.trans (natCast_le_pow2 (by omega))
    · omega
  apart := by
    have hle : |v| ≤ pow2 1023 := hv.trans (natCast_le_pow2 (by omega))
    by_cases hzero : v = 0
    · exact .inl (by rw [(fl_spec (fl_eq_flOf hle)).2.2, if_pos hzero])
    · have hvalue : IsBinary64Value (pow2 (-200)) :=
        ⟨1, -200, by norm_num, by norm_num, by rw [Int.cast_one, one_mul]⟩
      exact .inr (le_abs_exact_flOf hle hvalue (h0 hzero))

theorem abs_div_hundred (v : Rat) : |v / 100| = |v| / 100 := by
  rw [abs_div]
  norm_num

theorem pow2_mul_hundred_le {e : Int} (he : -193 ≤ e) : pow2 (-200) * 100 ≤ pow2 e := by
  calc pow2 (-200) * 100 ≤ pow2 (-200) * pow2 7 :=
        mul_le_mul_of_nonneg_left (by norm_num [pow2_eq_zpow]) (pow2_pos _).le
    _ = pow2 (-200 + 7) := (pow2_add _ _).symm
    _ ≤ pow2 e := pow2_le (by omega)

/-- The pressure in hectopascals keeps the bound, and loses less than seven binary places. -/
theorem hectopascals_inRange (hpa : InRange 152 (2 ^ 24) pa) :
    Tame (fdiv pa (f64 100)) ∧ |F64.exact (fdiv pa (f64 100))| ≤ (2 ^ 24 : Nat) := by
  have hle : |F64.exact pa / 100| ≤ (2 ^ 24 : Nat) := by
    rw [abs_div_hundred]
    exact (div_le_self (abs_nonneg _) (by norm_num)).trans hpa.within.bound
  rw [fdiv_hundred hpa.finite]
  refine ⟨tame_flOf hle (by norm_num) fun h0 => ?_, abs_exact_flOf_le
    (hle.trans (natCast_le_pow2 (by norm_num))) (isBinary64Value_natCast (by norm_num)) hle⟩
  rw [abs_div_hundred, le_div_iff₀ (by norm_num)]
  have hpa0 : F64.exact pa ≠ 0 := fun hc => h0 (by rw [hc, zero_div])
  exact (pow2_mul_hundred_le (by norm_num)).trans (hpa.within.grid.le_abs hpa0)

/-- A rounded hundredth is zero or at least 1/100. -/
theorem tame_round2 (hx : F64.isFinite x = true) (hle : |F64.exact x| ≤ (2 ^ 24 : Nat)) :
    Tame (round2 x) := by
  rw [round2_of_finite hx]
  refine tame_flOf (B := 2 ^ 24 + 1) ?_ (by norm_num) fun h0 => ?_
  · rw [Nat.cast_add, Nat.cast_one]
    exact (abs_rhe_hundredths_le _).trans (add_le_add_left hle 1)
  · have hN : rhe (100 * F64.exact x) ≠ 0 := fun hc => h0 (by rw [hc, Int.cast_zero, zero_div])
    have hone : (1 : Rat) ≤ |(rhe (100 * F64.exact x) : Rat)| := by
      exact_mod_cast Int.one_le_abs hN
    rw [abs_div_hundred, le_div_iff₀ (by norm_num)]
    exact (pow2_mul_hundred_le (e := 0) (by norm_num)).trans (by simpa [pow2_eq_zpow] using hone)

theorem result_tame (hpa : InRange 152 (2 ^ 24) pa) : ∀ y ∈ resultValues pa, Tame y := by
  obtain ⟨htame, hle⟩ := hectopascals_inRange hpa
  simp only [resultValues, List.forall_mem_cons]
  exact ⟨htame, tame_round2 htame.finite hle, List.forall_mem_nil _⟩

end Result

/-! ## The whole datapath -/

/-- Over every input each value of the datapath is finite, below 2^40, and far from the subnormals
(R131). -/
theorem pressureValues_tame {c3 c4 c5 c6 c7 c8 c9 c10 tr p : Int} (h3 : isU16 c3) (h4 : isU16 c4)
    (h5 : isS16 c5) (h6 : isS16 c6) (h7 : isS16 c7) (h8 : isS16 c8) (h9 : isS16 c9) (h10 : isS16 c10)
    (htr : isS16 tr) (hp : isU16 p) :
    ∀ y ∈ pressureValues c3 c4 c5 c6 c7 c8 c9 c10 tr p, Tame y := by
  obtain ⟨hs, -, hsTame⟩ := sensitivity_inRange h3 h4 h5 h9 htr
  obtain ⟨ho, hoz, hoTame⟩ := offset_inRange h6 h7 h8 h9 htr
  obtain ⟨hx, hxz, hxTame⟩ := uncorrected_inRange hs ho hoz hp
  obtain ⟨hpa, -, hpaTame⟩ := corrected_inRange hx hxz h10
  have htrTame : ∀ y ∈ [f64 tr], Tame y := List.forall_mem_singleton.mpr (inRange_f64_s16 htr).tame
  rw [pressureValues_eq]
  simp only [List.forall_mem_append]
  exact ⟨⟨⟨⟨⟨hsTame, hoTame⟩, htrTame⟩, hxTame⟩, hpaTame⟩, result_tame hpa⟩

/-- Settles O20: the bounds of R223, stage by stage. -/
theorem pressureDatapathStaysFinite : Obligations.PressureDatapathStaysFinite :=
  fun _ _ _ _ _ _ _ _ _ _ h3 h4 h5 h6 h7 h8 h9 h10 htr hp =>
    ⟨fun y hy =>
      have h := pressureValues_tame h3 h4 h5 h6 h7 h8 h9 h10 htr hp y hy
      ⟨h.finite, h.below⟩, rfl⟩

/-- Settles O21: every value but the last two lies on a grid no finer than 2^(-152). -/
theorem pressureDatapathNeverUnderflows : Obligations.PressureDatapathNeverUnderflows :=
  fun _ _ _ _ _ _ _ _ _ _ h3 h4 h5 h6 h7 h8 h9 h10 htr hp y hy =>
    (pressureValues_tame h3 h4 h5 h6 h7 h8 h9 h10 htr hp y hy).apart

/-- Settles O23: S and O begin with a converted integer, which is no -0, and each later sum has a term
that is none. -/
theorem pressureTermsAreNeverNegativeZero : Obligations.PressureTermsAreNeverNegativeZero := by
  intro c3 c4 c5 c6 c7 c8 c9 c10 tr p h3 h4 h5 h6 h7 h8 h9 h10 htr hp
  obtain ⟨hs, hsz, -⟩ := sensitivity_inRange h3 h4 h5 h9 htr
  obtain ⟨ho, hoz, -⟩ := offset_inRange h6 h7 h8 h9 htr
  obtain ⟨hx, hxz, -⟩ := uncorrected_inRange hs ho hoz hp
  obtain ⟨-, hpaz, -⟩ := corrected_inRange hx hxz h10
  exact ⟨hsz.ne_negZero, hoz.ne_negZero, hxz.ne_negZero, hpaz.ne_negZero⟩

/-! ## The spec's lower bound (log entry 14) -/

/-- On the inputs of log entry 14, X - 75000 is 2^(-31); its square, 2^(-62), is this pattern. -/
theorem two_pow_neg_62_mem_pressureValues : 0x3C10000000000000#64 ∈
    pressureValues 0 62349 0 15917 0 0 0 0 31855 63883 := by decide +kernel

theorem exact_two_pow_neg_62 : F64.exact 0x3C10000000000000#64 = pow2 (-62) := by decide +kernel

/-- Refutes O22: with C4 = 62349, C6 = 15917, tr = 31855, pressure_raw = 63883 and every other
coefficient 0, a value of the datapath is 2^(-62). -/
theorem not_nonzeroPressureValuesAreAtLeastTwoToMinus46 :
    ¬ Obligations.NonzeroPressureValuesAreAtLeastTwoToMinus46 := by
  intro h
  have hu : isU16 0 ∧ isU16 62349 ∧ isU16 63883 := by unfold isU16; decide
  have hs : isS16 0 ∧ isS16 15917 ∧ isS16 31855 := by unfold isS16; decide
  obtain ⟨hc3, hc4, hp⟩ := hu
  obtain ⟨h0, hc6, htr⟩ := hs
  have hvalue := h _ _ _ _ _ _ _ _ _ _ hc3 hc4 h0 hc6 h0 h0 h0 h0 htr hp _
    two_pow_neg_62_mem_pressureValues
  rw [exact_two_pow_neg_62, abs_of_pos (pow2_pos _)] at hvalue
  rcases hvalue with hzero | hle
  · exact (pow2_pos _).ne' hzero
  · exact hle.not_gt (pow2_lt (by norm_num))

end Sys2Proof.Machine

/-! PROOFS. The calibration: its words as numbers (R152, R153), INIT from its acceptance to its end (R155 to
R158), and the two words that no pressure depends on (R154). -/

namespace Sys2Proof.Machine

open Sys2Proof

variable {s t : State}

/-! ## Words as numbers -/

theorem decS16_eq_toInt (w : Word16) : decS16 w = w.toInt := by
  unfold decS16
  rw [BitVec.toInt_eq_toNat_cond]
  split <;> split <;> omega

theorem isS16_decS16 (w : Word16) : isS16 (decS16 w) := by
  rw [decS16_eq_toInt]
  exact ⟨BitVec.le_toInt w, Int.le_of_lt_add_one BitVec.toInt_lt⟩

theorem isU16_decU16 (w : Word16) : isU16 (decU16 w) :=
  ⟨Int.natCast_nonneg _, Int.ofNat_le.mpr (Nat.le_of_lt_succ w.isLt)⟩

/-- Settles O8: the definition's two cases are those of two's complement. -/
theorem signedDecodeIsTwosComplement : Obligations.SignedDecodeIsTwosComplement := by
  refine ⟨fun w => ?_, rfl, rfl, rfl, rfl⟩
  obtain ⟨hlow, hhigh⟩ := isS16_decS16 w
  exact ⟨decS16_eq_toInt w, hlow, hhigh, rfl⟩

theorem decCoefficient_unsigned {k : Fin 10} (h : k.val < 4) (w : Word16) :
    decCoefficient k w = decU16 w := if_pos h

theorem decCoefficient_signed {k : Fin 10} (h : 4 ≤ k.val) (w : Word16) :
    decCoefficient k w = decS16 w := if_neg (Nat.not_lt.mpr h)

/-- Settles O9: the decode's two cases are C1 to C4 and C5 to C10. -/
theorem coefficientsDecodeByNumber : Obligations.CoefficientsDecodeByNumber := by
  refine fun k w => ⟨?_, fun h => ?_, fun h => ?_⟩
  · rw [calInstr_byte, calAddr_toNat]
  · rw [decCoefficient_unsigned h]
    exact ⟨rfl, isU16_decU16 w⟩
  · rw [decCoefficient_signed h]
    exact ⟨rfl, isS16_decS16 w⟩

/-- Settles O28: the acceptance of INIT looks at CAL_VALID first. -/
theorem secondInitIsRefused : Obligations.SecondInitIsRefused :=
  fun _ hp hv => exec_init_refused hp hv

/-! ## One answer of INIT -/

theorem afterCalibrationWord_next {k : Fin 10} (h : k.val + 1 < 10) (s : State) :
    afterCalibrationWord k s = { s with
      phase := .initRd ⟨k.val + 1, h⟩
      trace := s.trace ++ [.issued (.busRead devAddr (calAddr ⟨k.val + 1, h⟩) 2)] } := by
  rw [afterCalibrationWord, dif_pos h, enter_eq (outstanding_initRd rfl)]

theorem afterCalibrationWord_last {k : Fin 10} (h : ¬ k.val + 1 < 10) (s : State) :
    afterCalibrationWord k s = respond .ok none { s with calValid := true } := dif_neg h

theorem calibrationRead_bytes {k : Fin 10} {b0 b1 : Byte} {rest : List Input}
    (hp : s.phase = .initRd k) (hi : s.inputs = .answer (.bytes [b0, b1]) :: rest) :
    calibrationRead k s = .next
      (afterCalibrationWord k (writeCalibration k (word16 b0 b1) { s with inputs := rest })) := by
  rw [calibrationRead, performed_of_emitted (emitted_initRd hp), readAnswer_bytes hi]

/-- Settles O30: the word is written, and what comes after it depends on whether it is the tenth. -/
theorem calibrationReadsComplete : Obligations.CalibrationReadsComplete := by
  intro s k b0 b1 rest hp hi
  rw [exec_calInstr, calibrationRead_bytes hp hi]
  split
  · next h => exact congrArg Host.Outcome.next (afterCalibrationWord_next h _)
  · next h => exact congrArg Host.Outcome.next (afterCalibrationWord_last h _)

/-- A step of INIT with two bytes at hand is its calibration read (R155). -/
theorem step_calibrationWord {k : Fin 10} {b0 b1 : Byte} {rest : List Input}
    (hp : s.phase = .initRd k) (hi : s.inputs = .answer (.bytes [b0, b1]) :: rest) :
    step s = .next
      (afterCalibrationWord k (writeCalibration k (word16 b0 b1) { s with inputs := rest })) := by
  rw [step_emitted hi (emitted_initRd hp), exec_calInstr, calibrationRead_bytes hp hi]

theorem answerPort_tRd (hp : s.phase = .tRd) : answerPort s = temperatureRead s := by
  rw [answerPort, hp]

theorem answerPort_pRd (hp : s.phase = .pRd) : answerPort s = pressureRead s := by
  rw [answerPort, hp]

/-- A failure ends the operation in every phase that awaits the transport; P_CMD awaits it for a PRES
opword alone (R251, R254). -/
theorem step_failure {rest : List Input} (hp : s.phase.awaitsTransport = true)
    (hc : s.phase = .pCmd → ∃ m, s.curop.value = presOpword m)
    (hi : s.inputs = .answer .failure :: rest) :
    step s = .next (raise .transport { s with inputs := rest }) := by
  obtain ⟨p, hph⟩ : ∃ p, s.phase = p := ⟨_, rfl⟩
  rw [hph] at hp
  cases p with
  | idle | tWait | pWait => cases hp
  | initRd k =>
    exact (step_performs (by rw [hph]; exact .calibrationWord k _) hi).trans (readAnswer_failure hi)
  | tCmd =>
    exact (step_performs (by rw [hph]; exact .temperatureCommand _) hi).trans (writeAnswer_failure hi)
  | pCmd =>
    obtain ⟨m, hm⟩ := hc hph
    exact (step_performs (by rw [hph, hm]; exact .pressureCommand m) hi).trans (writeAnswer_failure hi)
  | tRd =>
    exact (step_answerPort (.inr (.inl hph)) hi).trans
      ((answerPort_tRd hph).trans (readAnswer_failure hi))
  | pRd =>
    exact (step_answerPort (.inr (.inr (.inr hph))) hi).trans
      ((answerPort_pRd hph).trans (readAnswer_failure hi))

/-! ## INIT in progress -/

section Init

variable (bytes : Fin 10 → Byte × Byte)

/-- The calibration words after the first n answers: those of the answers, and behind them what stood
there before. -/
def loadedWords (calw : Vector (Register 16) 10) (n : Nat) : Vector (Register 16) 10 :=
  Vector.ofFn fun k =>
    if k.val < n then .written (word16 (bytes k).1 (bytes k).2) else calw[k]

theorem loadedWords_zero (calw : Vector (Register 16) 10) : loadedWords bytes calw 0 = calw := by
  ext k hk : 1
  simp [loadedWords]

theorem loadedWords_succ (calw : Vector (Register 16) 10) (k : Fin 10) :
    (loadedWords bytes calw k).set k (.written (word16 (bytes k).1 (bytes k).2)) =
      loadedWords bytes calw (k.val + 1) := by
  ext j hj : 1
  by_cases hjk : k.val = j
  · subst hjk
    simp [loadedWords]
  · have hlt : j < k.val + 1 ↔ j < k.val := by omega
    simp only [loadedWords, Vector.getElem_set_ne _ _ hjk, Vector.getElem_ofFn, hlt]

theorem loadedWords_ten (calw : Vector (Register 16) 10) :
    loadedWords bytes calw 10 = calibrationFile bytes := by
  ext k hk : 1
  simp [loadedWords, calibrationFile]

theorem take_finRange_succ (k : Fin 10) :
    (List.finRange 10).take (k.val + 1) = (List.finRange 10).take k.val ++ [k] := by
  rw [List.take_succ_eq_append_getElem (by simp)]
  simp

theorem calibrationAnswers_succ (k : Fin 10) : calibrationAnswers bytes (k.val + 1) =
    calibrationAnswers bytes k ++ [.answer (.bytes [(bytes k).1, (bytes k).2])] := by
  rw [calibrationAnswers, take_finRange_succ, List.map_append]
  rfl

theorem calibrationRequests_succ (k : Fin 10) : calibrationRequests (k.val + 1) =
    calibrationRequests k ++ [.busRead devAddr (calAddr k) 2] := by
  rw [calibrationRequests, take_finRange_succ, List.map_append]
  rfl

/-- INIT, accepted in state s, in `INIT_RD(k+1)`: k words have come, k + 1 reads are issued (R155,
R158). -/
def loading (k : Fin 10) (rest : List Input) (s : State) : State :=
  { s with
    calw := loadedWords bytes s.calw k
    phase := .initRd k
    curop := .written 0x01
    rvalid := false
    result := s.lostResult
    inputs := rest
    trace := s.trace ++ (calibrationRequests (k.val + 1)).map Event.issued }

/-- The acceptance of INIT issues its first read (R155). -/
theorem step_initAccepted {hs : List Byte} (hp : s.phase = .idle) (hv : s.calValid = false)
    (hh : s.held = 0x01 :: hs) :
    step s = .next (loading bytes 0 s.inputs { s with held := hs }) := by
  have hexec := initIsAccepted { s with held := hs } hp hv
  have hdecode : decodeByte .hostOp 0x01 = some .init := rfl
  rw [step_held hp hh, runRequest, hdecode]
  refine hexec.trans ?_
  simp only [loading, Fin.val_zero, loadedWords_zero]
  rfl

/-- Each answer but the tenth leads to the next read (R158). -/
theorem step_loading {k l : Fin 10} (hl : l.val = k.val + 1) (rest : List Input) (s : State) :
    step (loading bytes k (.answer (.bytes [(bytes k).1, (bytes k).2]) :: rest) s) =
      .next (loading bytes l rest s) := by
  have hlt : k.val + 1 < 10 := by omega
  obtain rfl : l = ⟨k.val + 1, hlt⟩ := Fin.ext hl
  rw [step_calibrationWord rfl rfl, afterCalibrationWord_next hlt]
  simp only [loading, writeCalibration, loadedWords_succ,
    calibrationRequests_succ ⟨k.val + 1, hlt⟩, List.map_append, List.append_assoc]
  rfl

/-- The tenth answer ends INIT with the calibration valid (R155). -/
theorem step_loading_last (rest : List Input) (s : State) :
    step (loading bytes 9 (.answer (.bytes [(bytes 9).1, (bytes 9).2]) :: rest) s) =
      .next (respond .ok none { loading bytes 9 rest s with
        calw := calibrationFile bytes, calValid := true }) := by
  rw [step_calibrationWord rfl rfl, afterCalibrationWord_last (by decide)]
  simp only [loading, writeCalibration, loadedWords_succ]
  rw [show (9 : Fin 10).val + 1 = 10 from rfl, loadedWords_ten]

end Init

/-! ## INIT as a run -/

/-- One more step at the end of a run. -/
theorem run_snoc {n : Nat} {u : State} (hn : core.run n s = .next t) (h : step t = .next u) :
    core.run (n + 1) s = .next u := by
  induction n generalizing s with
  | zero =>
    obtain rfl : s = t := Host.Outcome.next.inj hn
    rw [run_succ h, run_zero]
  | succ n ih =>
    cases hs : step s with
    | next v =>
      rw [run_succ hs] at hn ⊢
      exact ih hn
    | fault | refused =>
      simp only [Host.Core.run] at hn
      rw [show core.step s = step s from rfl, hs] at hn
      cases hn

/-- From its acceptance INIT comes with n answers to the read of word n + 1. -/
theorem run_loading {bytes : Fin 10 → Byte × Byte} {n : Nat} (hn : n < 10) {hs : List Byte}
    {rest : List Input} (hp : s.phase = .idle) (hv : s.calValid = false)
    (hh : s.held = 0x01 :: hs) (hi : s.inputs = calibrationAnswers bytes n ++ rest) :
    core.run (n + 1) s = .next (loading bytes ⟨n, hn⟩ rest { s with held := hs }) := by
  induction n generalizing rest with
  | zero =>
    obtain rfl : s.inputs = rest := hi
    rw [run_succ (step_initAccepted bytes hp hv hh), run_zero]
    rfl
  | succ n ih =>
    have hlt : n < 10 := by omega
    refine run_snoc (ih hlt (rest := .answer (.bytes [_, _]) :: rest) ?_)
      (step_loading bytes rfl rest _)
    rw [hi, calibrationAnswers_succ bytes ⟨n, hlt⟩, List.append_assoc]
    rfl

/-- Settles O42: nine answers lead to the tenth read, and the tenth ends INIT. -/
theorem initLoadsTheCalibration : Obligations.InitLoadsTheCalibration := by
  intro s bytes hs rest hp hv hh hi
  have hten : calibrationAnswers bytes 10 = calibrationAnswers bytes 9 ++ _ :=
    calibrationAnswers_succ bytes 9
  rw [hten, List.append_assoc] at hi
  rw [hp]
  exact run_snoc (run_loading (n := 9) (by decide) hp hv hh hi)
    (step_loading_last bytes rest { s with held := hs })

/-- Settles O43: j - 1 answers lead to read j, whose failure ends INIT and clears the calibration. -/
theorem failedInitLeavesNoCalibration : Obligations.FailedInitLeavesNoCalibration := by
  intro s bytes j hs rest hp hv hh hi
  refine ⟨?_, fun k => lostCalibration_holds _ k k.isLt⟩
  rw [hp]
  exact run_snoc (run_loading j.isLt hp hv hh hi)
    (step_failure (s := loading bytes j (.answer .failure :: rest) { s with held := hs })
      rfl nofun rfl)

/-! ## C1 and C2 in the pressure conversion (R154) -/

section IgnoredWords

variable (w1 w2 : Register 16)

/-- The state with other registers of C1 and C2. -/
def State.replaceC1C2 (s : State) : State := { s with calw := (s.calw.set 0 w1).set 1 w2 }

theorem coefficient_replaceC1C2 {k : Fin 10} (h : 2 ≤ k.val) (s : State) :
    (s.replaceC1C2 w1 w2).coefficient k = s.coefficient k := by
  have h0 : 0 ≠ k.val := by omega
  have h1 : 1 ≠ k.val := by omega
  simp [State.coefficient, State.replaceC1C2, Vector.getElem_set_ne _ _ h0,
    Vector.getElem_set_ne _ _ h1]

/-- PCOMP takes C3 to C10 (R154, R225). -/
theorem pressure_replaceC1C2 (s : State) : (s.replaceC1C2 w1 w2).pressure = s.pressure := by
  simp (disch := decide) only [State.pressure, coefficient_replaceC1C2]
  rfl

theorem endPressure_replaceC1C2 (s : State) :
    endPressure (s.replaceC1C2 w1 w2) = (endPressure s).replaceC1C2 w1 w2 := by
  rw [endPressure_eq, endPressure_eq, pressure_replaceC1C2]
  rfl

theorem isInit_of_isPressure {p : Phase} (h : p.isPressure = true) : p.isInit = false := by
  cases p with
  | initRd k => cases h
  | idle | tCmd | tWait | tRd | pCmd | pWait | pRd => rfl

/-- An error outside INIT keeps the calibration words (R254). -/
theorem raise_replaceC1C2 (e : ErrorKind) (hp : s.phase.isInit = false) :
    raise e (s.replaceC1C2 w1 w2) = (raise e s).replaceC1C2 w1 w2 := by
  have hp' : (s.replaceC1C2 w1 w2).phase.isInit = false := hp
  simp only [raise, hp, hp']
  rfl

/-- Phase and CUROP alone say what a step performs (R36). -/
theorem step_replaceC1C2 {f : State → Outcome} {a : Answer} {rest : List Input}
    (h : Performs s.phase s.curop.value f) (hi : s.inputs = .answer a :: rest) :
    step (s.replaceC1C2 w1 w2) = f (s.replaceC1C2 w1 w2) :=
  step_performs (s := s.replaceC1C2 w1 w2) h hi

/-- In P_CMD only a PRES opword has a next state on an answer (R36). -/
theorem curop_of_step_pCmd {a : Answer} {rest : List Input} (hp : s.phase = .pCmd)
    (hi : s.inputs = .answer a :: rest) (h : step s = .next t) :
    ∃ m, s.curop.value = presOpword m := by
  cases hm : s.mode with
  | some m => exact ⟨m, opwordMode_eq_some.mp hm⟩
  | none =>
    have he : s.emitted = none := by simp [State.emitted, hp, hm]
    rw [step_answer (by simp [hp]) hi, runAnswer, he] at h
    simp [answerPort, hp] at h

end IgnoredWords

/-- Settles O47: the command and the delay leave CALW alone, and the compute reads C3 to C10. -/
theorem pressureIgnoresC1AndC2 : Obligations.PressureIgnoresC1AndC2 := by
  intro s t w1 w2 a rest hpress hi h
  change step (s.replaceC1C2 w1 w2) = .next (t.replaceC1C2 w1 w2)
  cases step_transition h with
  | pressureCommand m r hp hm hr =>
    rw [step_replaceC1C2 w1 w2 (by rw [hp, hm]; exact .pressureCommand m) hr,
      writeAnswer_ok (s := s.replaceC1C2 w1 w2) hr]
    rfl
  | pressureDelayDone m r hp hm hr =>
    rw [step_replaceC1C2 w1 w2 (by rw [hp, hm]; exact .pressureDelay m) hr,
      sleepAnswer_slept (s := s.replaceC1C2 w1 w2) hr]
    rfl
  | pressureEnds m b0 b1 r hp hm hr =>
    rw [step_replaceC1C2 w1 w2 (by rw [hp, hm]; exact .pressureEnds m) hr,
      readAnswer_bytes (s := s.replaceC1C2 w1 w2) hr]
    exact congrArg Host.Outcome.next (endPressure_replaceC1C2 w1 w2
      { s with inputs := r, praw := .written (word16 b0 b1) })
  | failed r hp hr =>
    have hc (hcmd : s.phase = .pCmd) := curop_of_step_pCmd hcmd hi h
    rw [step_failure (s := s.replaceC1C2 w1 w2) hp hc hr]
    exact congrArg Host.Outcome.next (raise_replaceC1C2 w1 w2 (s := { s with inputs := r }) _
      (isInit_of_isPressure hpress))
  | initAccepted r hp | conversionAccepted w r hp | uninitialized w r hp | rests hp
  | calibrationWord k b0 b1 r hp | temperatureCommand r hp | temperatureDelayDone r hp
  | temperatureEnds f b0 b1 r hp | pressureStarts m b0 b1 r hp =>
    simp [hp, Phase.isPressure] at hpress
  | requestArrives w r hp hr | portRead p v r hp hr | lateAnswerDropped r hp hr
  | resetTaken r hp hr => simp [hi] at hr

end Sys2Proof.Machine

/-! PROOFS. The temperature: TCOMP's ranges and its 32-bit datapath (R180 to R182), the command writes and
their settle delays (R183, R210, R211), and TRAW and TEMP from acceptance to response (R183 to R186). -/

namespace Sys2Proof.Machine

open Sys2Proof

variable {s : State}

/-! ## The ranges of TCOMP -/

theorem asr_mono {u v : Int} (h : u ≤ v) (n : Nat) : asr u n ≤ asr v n :=
  Int.ediv_le_ediv (by positivity) h

section Ranges

variable {c1 c2 tr : Int}

/-- For each tr the product is linear in C1, so its extremes are at the corners (R182). -/
theorem c1_mul_tr_range (h1 : isU16 c1) (ht : isS16 tr) :
    -2147450880 ≤ c1 * tr ∧ c1 * tr ≤ 2147385345 := by
  obtain ⟨hc, hc'⟩ := h1
  obtain ⟨ht, ht'⟩ := ht
  have hlow : 0 ≤ c1 * (tr + 32768) := mul_nonneg hc (by omega)
  have hhigh : 0 ≤ c1 * (32767 - tr) := mul_nonneg hc (by omega)
  rw [mul_add] at hlow
  rw [mul_sub] at hhigh
  omega

theorem asr_c1_mul_tr_range (h1 : isU16 c1) (ht : isS16 tr) :
    -8388480 ≤ asr (c1 * tr) 8 ∧ asr (c1 * tr) 8 ≤ 8388224 := by
  obtain ⟨hlow, hhigh⟩ := c1_mul_tr_range h1 ht
  exact ⟨asr_mono hlow 8, asr_mono hhigh 8⟩

theorem shl_range (h2 : isU16 c2) : 0 ≤ shl c2 6 ∧ shl c2 6 ≤ 4194240 := by
  obtain ⟨hlow, hhigh⟩ := h2
  unfold shl
  omega

theorem shiftedSum_range (h1 : isU16 c1) (h2 : isU16 c2) (ht : isS16 tr) :
    -8388480 ≤ asr (c1 * tr) 8 + shl c2 6 ∧ asr (c1 * tr) 8 + shl c2 6 ≤ 12582464 := by
  have ha := asr_c1_mul_tr_range h1 ht
  have hb := shl_range h2
  omega

theorem hundredfold_range (h1 : isU16 c1) (h2 : isU16 c2) (ht : isS16 tr) :
    -838848000 ≤ (asr (c1 * tr) 8 + shl c2 6) * 100 ∧
      (asr (c1 * tr) 8 + shl c2 6) * 100 ≤ 1258246400 := by
  have hs := shiftedSum_range h1 h2 ht
  omega

theorem tcomp_range (h1 : isU16 c1) (h2 : isU16 c2) (ht : isS16 tr) :
    -12800 ≤ tcomp c1 c2 tr ∧ tcomp c1 c2 tr ≤ 19199 := by
  obtain ⟨hlow, hhigh⟩ := hundredfold_range h1 h2 ht
  exact ⟨asr_mono hlow 16, asr_mono hhigh 16⟩

end Ranges

/-! ## TCOMP on 32-bit words -/

/-- The arithmetic shift of a word is `asr` of its value, as long as the value fits (R121). -/
theorem sshiftRight_ofInt {v : Int} (hlow : -2 ^ 31 ≤ v) (hhigh : v < 2 ^ 31) (n : Nat) :
    (BitVec.ofInt 32 v).sshiftRight n = BitVec.ofInt 32 (asr v n) := by
  rw [← BitVec.ofInt_toInt (x := (BitVec.ofInt 32 v).sshiftRight n), BitVec.toInt_sshiftRight,
    BitVec.toInt_ofInt_eq_self (by decide) hlow hhigh, Int.shiftRight_eq_div_pow, asr]
  norm_cast

/-- The left shift of a word is `shl` of its value, wrapped (R122). -/
theorem shiftLeft_ofInt {w : Nat} (v : Int) (n : Nat) :
    BitVec.ofInt w v <<< n = BitVec.ofInt w (shl v n) := by
  have hpow : BitVec.ofInt w (2 ^ n) = BitVec.twoPow w n := by
    apply BitVec.eq_of_toNat_eq
    rw [← Nat.cast_ofNat, ← Nat.cast_pow, BitVec.ofInt_natCast, BitVec.toNat_ofNat,
      BitVec.toNat_twoPow]
  rw [shl, BitVec.ofInt_mul, hpow, BitVec.mul_twoPow_eq_shiftLeft]

/-- Nothing wraps before a shift, so the words are those of TCOMP's steps (R182). -/
theorem tcomp_words {c1 c2 tr : Int} (h1 : isU16 c1) (h2 : isU16 c2) (ht : isS16 tr) :
    (((BitVec.ofInt 32 c1 * BitVec.ofInt 32 tr).sshiftRight 8 + BitVec.ofInt 32 c2 <<< 6)
      * 100#32).sshiftRight 16 = BitVec.ofInt 32 (tcomp c1 c2 tr) := by
  have hp := c1_mul_tr_range h1 ht
  have hm := hundredfold_range h1 h2 ht
  rw [← BitVec.ofInt_mul, sshiftRight_ofInt (by omega) (by omega), shiftLeft_ofInt,
    ← BitVec.ofInt_add, ← BitVec.ofInt_ofNat, ← BitVec.ofInt_mul,
    sshiftRight_ofInt (by omega) (by omega)]
  rfl

/-- Settles O11: the extremes of the product are carried through the monotone steps, and a word of
TCOMP's range has TCOMP as its value. -/
theorem temperatureFitsThirtyTwoBits : Obligations.TemperatureFitsThirtyTwoBits := by
  refine ⟨fun w1 w2 w => ?_, by decide, by decide⟩
  have h1 := isU16_decU16 w1
  have h2 := isU16_decU16 w2
  have ht := isS16_decS16 w
  have htemp := tcomp_range h1 h2 ht
  refine ⟨c1_mul_tr_range h1 ht, asr_c1_mul_tr_range h1 ht, shl_range h2, shiftedSum_range h1 h2 ht,
    hundredfold_range h1 h2 ht, htemp, ?_⟩
  rw [tcomp_words h1 h2 ht, BitVec.toInt_ofInt_eq_self (by decide) (by omega) (by omega)]

/-! ## The command writes -/

/-- A command write answered with success enters its wait and issues the delay (R183, R211). -/
theorem commandWrite_ok {i : Instr} {p : Phase} {r : Request} {rest : List Input}
    (he : s.emitted = some i) (hi : s.inputs = .answer .ok :: rest)
    (hr : State.outstanding { s with inputs := rest, phase := p } = some r) :
    commandWrite i p s = .next { s with
      inputs := rest, phase := p, trace := s.trace ++ [.issued r] } := by
  rw [commandWrite, performed_of_emitted he, writeAnswer_ok hi,
    enter_eq (s := { s with inputs := rest }) hr]

/-- Settles O31: each wait's request is the sleep of its delay. -/
theorem commandWritesComplete : Obligations.CommandWritesComplete := by
  refine ⟨fun s rest hp hi => ?_, fun s m rest hp hm hi => ?_⟩
  · exact commandWrite_ok (emitted_tCmd hp) hi (outstanding_tWait rfl)
  · rw [exec_modeInstr, commandWrite_ok (emitted_pCmd hp hm) hi (outstanding_pWait rfl hm)]
    cases m <;> rfl

/-! ## TRAW and TEMP as runs -/

section Conversion

variable {i : Instr} {hs : List Byte} {rest : List Input}

/-- A step that accepts a conversion issues the temperature command (R36, R183). -/
theorem step_conversionAccepted (hf : i.format = .hostOp) (hne : i ≠ .init) (hp : s.phase = .idle)
    (hv : s.calValid = true) (hh : s.held = i.byte :: hs) :
    step s = .next { s with
      held := hs, curop := .written i.byte, rvalid := false, result := s.lostResult,
      phase := .tCmd, trace := s.trace ++ [.issued (.busWrite 0x77 0xF1 [0x03])] } := by
  have hdecode : decodeByte .hostOp i.byte = some i := hf ▸ decodeByte_byte i
  rw [step_held hp hh, runRequest, hdecode]
  exact conversionIsAccepted i { s with held := hs } hf hne hp hv

/-- A step with the temperature command's success at hand issues its delay (R183). -/
theorem step_temperatureCommand (hp : s.phase = .tCmd) (hi : s.inputs = .answer .ok :: rest) :
    step s = .next { s with
      inputs := rest, phase := .tWait, trace := s.trace ++ [.issued (.sleep 5)] } := by
  obtain ⟨hcommand, -⟩ := commandWritesComplete
  rw [step_emitted hi (emitted_tCmd hp), hcommand s rest hp hi]

/-- Every conversion, PRES among them, comes in three steps from its acceptance to the read of the
temperature (R183, `T_ACQ`). -/
theorem run_temperatureAcquisition (hf : i.format = .hostOp) (hne : i ≠ .init)
    (hp : s.phase = .idle) (hv : s.calValid = true) (hh : s.held = i.byte :: hs)
    (hi : s.inputs = .answer .ok :: .answer .slept :: rest) :
    core.run 3 s = .next { s with
      held := hs, inputs := rest, curop := .written i.byte, rvalid := false,
      result := s.lostResult, phase := .tRd,
      trace := s.trace ++ [.issued (.busWrite 0x77 0xF1 [0x03]), .issued (.sleep 5),
        .issued (.busRead 0x77 0xF5 2)] } := by
  obtain ⟨hdelay, -⟩ := delayIsFollowedByTheDataRead
  refine Eq.trans (run_succ (step_conversionAccepted hf hne hp hv hh)) ?_
  refine Eq.trans (run_succ (step_temperatureCommand rfl hi)) ?_
  refine Eq.trans (run_succ (hdelay _ rest rfl rfl)) ?_
  simp only [run_zero, List.append_assoc, List.cons_append, List.nil_append]

/-- A conversion that ends with the temperature gives it as f encodes it (R185, R186). -/
theorem run_temperatureOperation {f : Int → BitVec 64} {b0 b1 : Byte} {v : BitVec 64}
    (hf : i.format = .hostOp) (hne : i ≠ .init)
    (hend : Performs .tRd i.byte fun s => readAnswer s fun w s =>
      .next (endTemperature f { s with tr := .written w }))
    (hp : s.phase = .idle) (hv : s.calValid = true) (hh : s.held = i.byte :: hs)
    (hi : s.inputs = .answer .ok :: .answer .slept :: .answer (.bytes [b0, b1]) :: rest)
    (hval : v = f (tcomp (decU16 s.calw[(0 : Fin 10)].value) (decU16 s.calw[(1 : Fin 10)].value)
      (decS16 (word16 b0 b1)))) :
    core.run 4 s = .next { s with
      held := hs, inputs := rest, curop := .written i.byte, tr := .written (word16 b0 b1),
      status := .ok, rvalid := true, result := .written v,
      trace := s.trace ++ [.issued (.busWrite 0x77 0xF1 [0x03]), .issued (.sleep 5),
        .issued (.busRead 0x77 0xF5 2), .responded .ok (some v)] } := by
  rw [run_snoc (run_temperatureAcquisition hf hne hp hv hh hi)
    (step_temperatureEnds hend rfl hval), hp]
  simp only [List.append_assoc, List.cons_append, List.nil_append]

end Conversion

/-- Settles O44: TRAW and TEMP run alike, each with its own encoding of the hundredths. -/
theorem temperatureOperationsRun : Obligations.TemperatureOperationsRun := by
  intro s opword b0 b1 hs rest hp hv hh hop hi
  rcases hop with rfl | rfl
  · exact run_temperatureOperation (i := .traw) rfl nofun .trawEnds hp hv hh hi rfl
  · exact run_temperatureOperation (i := .temp) rfl nofun .tempEnds hp hv hh hi rfl

end Sys2Proof.Machine

/-! PROOFS. The pressure: the steps of its conversion (R211, R217), PRES from acceptance to response (R217 to
R221), and that its mode does not change its result (R222). -/

namespace Sys2Proof.Machine

open Sys2Proof

variable {s : State}

/-! ## The steps of the pressure conversion -/

/-- Settles O34: the request outstanding in P_CMD is the write of the mode byte. -/
theorem pressureConversionStarts : Obligations.PressureConversionStarts := by
  intro s m b0 b1 rest hp hm hi
  rw [step_performs (by rw [hp, hm]; exact .pressureStarts m) hi, readAnswer_bytes hi,
    enter_eq (s := { s with inputs := rest, tr := .written _ }) (outstanding_pCmd rfl hm)]
  rfl

section Conversion

variable {m : Mode} {a : Answer} {rest : List Input}

/-- A step with the mode byte's success at hand issues the mode's delay (R211). -/
theorem step_pressureCommand (hp : s.phase = .pCmd) (hm : s.curop.value = presOpword m)
    (hi : s.inputs = .answer .ok :: rest) :
    step s = .next { s with
      inputs := rest, phase := .pWait, trace := s.trace ++ [.issued (.sleep (modeDelay m))] } := by
  have he := emitted_pCmd hp hm
  rw [step_emitted hi he, exec_modeInstr, commandWrite_ok he hi (outstanding_pWait rfl hm)]

/-- A step with an answer at hand in P_RD does the same in every mode (R217, R222). -/
theorem step_pressureRead (hp : s.phase = .pRd) (hm : s.curop.value = presOpword m)
    (hi : s.inputs = .answer a :: rest) :
    step s = readAnswer s fun w s => .next (endPressure { s with praw := .written w }) :=
  step_performs (by rw [hp, hm]; exact .pressureEnds m) hi

end Conversion

/-- The pressure of the registers takes C3 and C4 unsigned and C5 to C10 signed (R153, R225). -/
theorem pressure_eq (s : State) : s.pressure =
    pcomp (decU16 s.calw[(2 : Fin 10)].value) (decU16 s.calw[(3 : Fin 10)].value)
      (decS16 s.calw[(4 : Fin 10)].value) (decS16 s.calw[(5 : Fin 10)].value)
      (decS16 s.calw[(6 : Fin 10)].value) (decS16 s.calw[(7 : Fin 10)].value)
      (decS16 s.calw[(8 : Fin 10)].value) (decS16 s.calw[(9 : Fin 10)].value)
      (decS16 s.tr.value) (decU16 s.praw.value) := by
  simp (disch := decide) only [State.pressure, State.coefficient, decCoefficient_unsigned,
    decCoefficient_signed]

/-- Settles O35: the word latched in PRAW is the one the compute reads. -/
theorem pressureOperationsEnd : Obligations.PressureOperationsEnd := by
  intro s m b0 b1 rest hp hm hi
  rw [step_pressureRead hp hm hi, readAnswer_bytes hi, endPressure_eq, pressure_eq]
  rfl

/-! ## PRES as a run -/

/-- Every PRES opword is that of a conversion's row in the host interface (R91, R217). -/
theorem exists_presRow (m : Mode) :
    ∃ i : Instr, i.format = .hostOp ∧ i ≠ .init ∧ i.byte = presOpword m := by
  cases m with
  | low => exact ⟨.presLow, rfl, nofun, rfl⟩
  | standard => exact ⟨.presStandard, rfl, nofun, rfl⟩
  | high => exact ⟨.presHigh, rfl, nofun, rfl⟩
  | ultra => exact ⟨.presUltra, rfl, nofun, rfl⟩

/-- Settles O45: the temperature is acquired as by TRAW and TEMP, and the pressure conversion's four steps
follow it. -/
theorem pressureOperationsRun : Obligations.PressureOperationsRun := by
  intro s m t0 t1 p0 p1 hs rest hp hv hh hi
  obtain ⟨i, hf, hne, hbyte⟩ := exists_presRow m
  obtain ⟨-, hdelay⟩ := delayIsFollowedByTheDataRead
  have hacquired := run_temperatureAcquisition hf hne hp hv (hbyte ▸ hh) hi
  have hstarted := run_snoc hacquired (pressureConversionStarts _ m t0 t1 _ rfl hbyte rfl)
  have hcommanded := run_snoc hstarted (step_pressureCommand rfl hbyte rfl)
  have hwaited := run_snoc hcommanded (hdelay _ m _ rfl hbyte rfl)
  rw [run_snoc hwaited (pressureOperationsEnd _ m p0 p1 rest rfl hbyte rfl), hp, hbyte]
  simp only [List.append_assoc, List.cons_append, List.nil_append, written_value]

/-! ## The mode and the result (R222) -/

section Mode

variable (c : Register 8)

/-- The state with another CUROP. -/
def State.replaceCurop (s : State) : State := { s with curop := c }

/-- PCOMP takes coefficients, TR and PRAW (R225). -/
theorem endPressure_replaceCurop (s : State) :
    endPressure (s.replaceCurop c) = (endPressure s).replaceCurop c := rfl

/-- An error looks at the phase alone (R254). -/
theorem raise_replaceCurop (e : ErrorKind) (s : State) :
    raise e (s.replaceCurop c) = (raise e s).replaceCurop c := by
  cases hp : s.phase.isInit with
  | true | false =>
    have hp' : (s.replaceCurop c).phase.isInit = _ := hp
    simp only [raise, hp, hp']
    rfl

/-- In P_RD any two PRES opwords give one step, but for CUROP (R222): the step reads CUROP for its being
one of them, and neither the compute nor an error reads it. -/
theorem step_replaceCurop {t : State} {m n : Mode} {a : Answer} {rest : List Input}
    (hp : s.phase = .pRd) (hm : s.curop.value = presOpword m) (hn : c.value = presOpword n)
    (hi : s.inputs = .answer a :: rest) (h : step s = .next t) :
    step (s.replaceCurop c) = .next (t.replaceCurop c) := by
  rw [step_pressureRead hp hm hi] at h
  rw [step_pressureRead (s := s.replaceCurop c) hp hn hi]
  rcases readAnswer_next h with ⟨b0, b1, r, hr, hend⟩ | ⟨r, hr, rfl⟩
  · obtain rfl := Host.Outcome.next.inj hend
    rw [readAnswer_bytes (s := s.replaceCurop c) hr]
    exact congrArg Host.Outcome.next
      (endPressure_replaceCurop c { s with inputs := r, praw := .written (word16 b0 b1) })
  · rw [readAnswer_failure (s := s.replaceCurop c) hr]
    exact congrArg Host.Outcome.next (raise_replaceCurop c .transport { s with inputs := r })

end Mode

/-- Settles O46: the other mode's opword is another PRES opword in CUROP. -/
theorem modeDoesNotChangeTheResult : Obligations.ModeDoesNotChangeTheResult :=
  fun _ _ _ _ _ _ hp hm hi h => step_replaceCurop _ hp hm rfl hi h

end Sys2Proof.Machine

/-! PROOFS. The errors (R250 to R255) and the requests that wait for their turn (R267). -/

namespace Sys2Proof.Machine

open Sys2Proof

variable {s t : State}

/-! ## Errors -/

/-- An error outside INIT is its response alone (R254). -/
theorem raise_of_not_isInit {e : ErrorKind} (h : s.phase.isInit = false) :
    raise e s = respond e.status none s := by
  simp [raise, h]

/-- An error in INIT clears the calibration too (R156, R254). -/
theorem raise_of_isInit {e : ErrorKind} (h : s.phase.isInit = true) :
    raise e s = respond e.status none (clearCalibration s) := by
  simp [raise, h]

/-- Settles O36: the failed operation raises TransportError, and only INIT has words to lose. -/
theorem transportFailureEndsTheOperation : Obligations.TransportFailureEndsTheOperation := by
  refine fun s rest hi => ⟨fun k hp => ?_, fun hp => ?_,
    fun k => lostCalibration_holds s k k.isLt, lostResult_holds s, rfl⟩
  · rw [step_failure (by rw [hp]; rfl) (by rw [hp]; nofun) hi,
      raise_of_isInit (s := { s with inputs := rest }) (by rw [hp]; rfl)]
    rfl
  · obtain ⟨hawaits, hinit, hmode⟩ : s.phase.awaitsTransport = true ∧ s.phase.isInit = false ∧
        (s.phase = .pCmd → ∃ m, s.curop.value = presOpword m) := by
      rcases hp with hp | hp | hp | ⟨hp, hm⟩ <;> rw [hp]
      on_goal 4 => exact ⟨rfl, rfl, fun _ => hm⟩
      all_goals exact ⟨rfl, rfl, nofun⟩
    rw [step_failure hawaits hmode hi, raise_of_not_isInit (s := { s with inputs := rest }) hinit]
    rfl

/-- Settles O27: without a calibration the acceptance raises UninitializedError. -/
theorem uninitializedBeforeAnyRequest : Obligations.UninitializedBeforeAnyRequest := by
  refine ⟨fun i s hf hi hp hv => ?_, rfl⟩
  have hinit : (accept i.byte s).phase.isInit = false := by rw [accept_phase, hp]; rfl
  rw [exec_conversion hf hi, requested_idle hp, startConversion_invalid hv,
    raise_of_not_isInit hinit, hp]
  rfl

/-! ## Held requests -/

/-- Every row of the host interface is a request for its own opword (R91, R267). -/
theorem exec_hostOp {i : Instr} (hf : i.format = .hostOp) :
    ∃ go, ∀ s, exec i s = requested i.byte s go := by
  by_cases hi : i = .init
  · subst hi
    exact ⟨_, fun _ => rfl⟩
  · exact ⟨_, exec_conversion hf hi⟩

/-- Settles O29: a busy engine holds what is requested, an arriving opword is an input, and a held one
runs in IDLE. -/
theorem requestIsHeldWhileBusy : Obligations.RequestIsHeldWhileBusy := by
  obtain ⟨hruns, -⟩ := stepRunsTheDecodedInstruction
  refine ⟨fun i s hf hp => ?_, fun s w rest hp hi => ?_, hruns⟩
  · obtain ⟨go, hgo⟩ := exec_hostOp hf
    rw [hgo, requested_busy hp]
    rfl
  · rw [step_input hp, runInput, hi]
    rfl

@[simp] theorem afterCalibrationWord_held (k : Fin 10) (s : State) :
    (afterCalibrationWord k s).held = s.held := by
  unfold afterCalibrationWord; split <;> rfl

/-- The held requests change by an arrival or by an acceptance in IDLE, and in no other way (R267). -/
theorem Transition.held (h : Transition s t) :
    t.held = s.held ∨
    (∃ w rest, s.inputs = .request w :: rest ∧ t.held = s.held ++ [w]) ∨
    (s.phase = .idle ∧ ∃ w, s.held = w :: t.held ∧ t.curop = .written w) := by
  cases h with
  | initAccepted rest hp hh | conversionAccepted w rest hp hh => exact .inr (.inr ⟨hp, _, hh, rfl⟩)
  | uninitialized w rest hp hh => exact .inr (.inr ⟨hp, w, by simpa using hh, raise_curop _ _⟩)
  | requestArrives w rest hp hi => exact .inr (.inl ⟨w, rest, hi, rfl⟩)
  | calibrationWord => exact .inl (afterCalibrationWord_held _ _)
  | failed => exact .inl (raise_held _ _)
  | temperatureCommand | pressureCommand | temperatureDelayDone | pressureDelayDone
  | temperatureEnds | pressureStarts | pressureEnds | portRead | lateAnswerDropped | resetTaken
  | rests => exact .inl rfl

/-- Settles O59: every transition keeps the held requests, adds the arriving one or takes the oldest. -/
theorem heldRequestsAreNotLost : Obligations.HeldRequestsAreNotLost :=
  fun _ _ h => (step_transition h).held

end Sys2Proof.Machine

/-! PROOFS. The reset, and the answers that come after it to abandoned requests (R280, R281). -/

namespace Sys2Proof.Machine

open Sys2Proof

variable {s : State} {rest : List Input}

/-- A reset in IDLE abandons no request, for none is outstanding (R35, R281). -/
theorem resetEngine_idle (hp : s.phase = .idle) :
    resetEngine s = { State.reset with
      held := s.held, inputs := s.inputs, trace := s.trace, abandoned := s.abandoned } := by
  simp [resetEngine, (busy_eq_false s).mpr hp]

/-- A reset of a busy engine abandons the one request outstanding (R35, R281). -/
theorem resetEngine_busy (hp : s.phase ≠ .idle) :
    resetEngine s = { State.reset with
      held := s.held, inputs := s.inputs, trace := s.trace, abandoned := s.abandoned + 1 } := by
  simp [resetEngine, (busy_eq_true s).mpr hp]

/-- A reset to come is taken (R280). -/
theorem step_reset (hp : s.phase ≠ .idle ∨ s.held = []) (hi : s.inputs = .reset :: rest) :
    step s = .next (resetEngine { s with inputs := rest }) := by
  rw [step_input hp, runInput, hi]

/-- An answer to an abandoned request is dropped, and one request fewer is left (R281). -/
theorem step_lateAnswer (hp : s.phase ≠ .idle ∨ s.held = []) (hi : s.inputs = .lateAnswer :: rest)
    (ha : 0 < s.abandoned) :
    step s = .next { s with inputs := rest, abandoned := s.abandoned - 1 } := by
  rw [step_input hp, runInput, hi]
  exact if_pos ha

/-- Settles O41: BUSY decides whether a reset abandons a request, and only a request so abandoned has a
late answer to drop. -/
theorem resetAbandonsTheOperation : Obligations.ResetAbandonsTheOperation := by
  refine fun s rest hp => ⟨fun hi => ?_, step_lateAnswer hp⟩
  rw [step_reset hp hi]
  by_cases hidle : s.phase = .idle
  · rw [resetEngine_idle (s := { s with inputs := rest }) hidle, if_pos hidle]
  · rw [resetEngine_busy (s := { s with inputs := rest }) hidle, if_neg hidle]

end Sys2Proof.Machine
